-- ==== Sys2Proof/Word.lean ====
section
/-! DEFINITION. Word.lean: the words of the hardware (spec 00_scope.md R6, R8, R9).

A register value is a bit vector: the spec adds to it, compares it bit for bit and lets it wrap. `u(w)` of R9 is
`BitVec.toNat`, `s(w)` is `BitVec.toInt`, `trunc_XLEN(z)` is `BitVec.ofInt 32 z`. -/

namespace Sys2Proof

/-- A word of XLEN = 32 bits (00_scope.md R6, decision D1; the width is fixed here, assumption log entry 1). -/
abbrev Word := BitVec 32

/-- A word of the program store, ILEN = 8 bits (00_scope.md R6, 30_encoding.md R70). -/
abbrev Byte := BitVec 8

/-- A value of the program counter, PCW = 3 bits (00_scope.md R6, 10_state.md R27). -/
abbrev PcValue := BitVec 3

end Sys2Proof
end

