-- ==== Sys2Proof/Config.lean ====
section
/-! DEFINITION. Config.lean: the parameters of 00_scope.md R6, and the values the spec leaves open.

A parameter the spec decides is a definition with that value. A value the spec leaves open is an `opaque` constant
with no body: nothing can be proved of it, so a claim holds whatever it is. -/

namespace Sys2Proof

/-- NPROG: the number of words of the program store (00_scope.md R6). -/
def Config.nprog : Nat := 6

/-- TPC, ticks per count: the divisor of the mapper (00_scope.md R6, decision D17). -/
def Config.tpc : Int := 2

/-- ANGLE_SPAN: the divisor of the interpolation, in degrees (00_scope.md R6). -/
def Config.angleSpan : Int := 180

/-- RATE_HZ: ticks per second (00_scope.md R6, 60_exceptions.md R176). No step depends on it (log entry 11). -/
def Config.rateHz : Nat := 1000000

/-- PRE_REF: the preload for a 20 000 microsecond period (00_scope.md R6, decision D18), a value software writes. -/
def Config.preRef : Word := 9998

/-- PWMIN_REF: the lower calibration value in microseconds (00_scope.md R6), a value software writes. -/
def Config.pwminRef : Word := 700

/-- PWMAX_REF: the upper calibration value in microseconds (00_scope.md R6), a value software writes. -/
def Config.pwmaxRef : Word := 2500

/-- PROG: the words of the program store, `PROG[0]` first (00_scope.md R6, 41_reference_program.md R110). -/
def Config.prog : List Byte := [0x00, 0x20, 0x40, 0x65, 0x80, 0xA3]

/-- What an index of the program store that the state does not list reads as: the configured word, and nothing at an
index that names no word (20_memory.md R50 (1), R51). -/
def Config.unlisted (a : Nat) : Option Byte := Config.prog[a]?

/-- The word address `PSEQ_BASE / 4` of host register 0: OPEN, chosen by the platform (20_memory.md R54). Log entry 7. -/
opaque Config.pseqBaseWord : Nat

/-- PSEQ_BASE, "a multiple of 4 chosen by the platform" (20_memory.md R54). -/
def Config.pseqBase : Nat := 4 * Config.pseqBaseWord

/-- `next(p)` for p = 6 and p = 7, which the spec does not define (20_memory.md R53 covers 0 to 5; the two values are
never produced, 10_state.md R27). DESIGN CHOICE, safe: a free value, log entry 5. -/
opaque Config.nextOutside : PcValue → PcValue

/-- The duration in seconds of a number of ticks (60_exceptions.md R176: "`n / RATE_HZ` seconds"). -/
def Config.secondsOfTicks (ticks : Nat) : ℚ := ticks / Config.rateHz

end Sys2Proof
end

