-- ==== Sys2Proof/Machine/State.lean ====
section
/-! DEFINITION. State.lean: the state of PSEQ (10_state.md R20 to R33), the steps that reach it from outside, and the
reasons a step can stop.

The fields `x` to `pwmax` are the ten pieces of state of R20, "and no other". The last three fields are the model's
own (assumption log entries 2, 3 and 4): the program store's contents, the outside steps that lie ahead, and the word
the host read last. -/

namespace Sys2Proof.Machine

/-- The program store's contents where they differ from the configured PROG: (index, word) pairs with rising indices.
An index that is not listed reads as `Config.unlisted` (log entry 2). -/
abbrev Memory := List Host.Cell

/-- The five host registers (10_state.md R33). -/
inductive HostReg where
  /-- Register 0: RUN in bit 0, RST in bit 1 (R32). -/
  | ctrl
  /-- Register 1: the period preload (R23). -/
  | pre
  /-- Register 2: the lower calibration value (R30). -/
  | pwmin
  /-- Register 3: the upper calibration value (R30). -/
  | pwmax
  /-- Register 4: the angle port, write-only (R31). -/
  | angle
  deriving DecidableEq, Repr

/-- A bus access reads or writes (20_memory.md R54). -/
inductive BusKind where
  | read
  | write (v : Word)
  deriving DecidableEq, Repr

/-- An access of a byte-addressed platform bus (20_memory.md R54, R55): its byte address, its width in bytes, and
whether it reads or writes. -/
structure BusAccess where
  addr : Nat
  bytes : Nat
  kind : BusKind
  deriving DecidableEq, Repr

/-- What can reach the block in one step of the total order (20_memory.md R60, 60_exceptions.md R169). A host access
is named by register number (43_host_operations.md R145) or as the platform's bus carries it (20_memory.md R54). -/
inductive Input where
  /-- One assertion of `tick` (60_exceptions.md R176). -/
  | tick
  /-- Assertion of the hardware reset input `rst` (43_host_operations.md R152). -/
  | rst
  /-- `HostRead(n)` (43_host_operations.md R146). -/
  | hostRead (n : Nat)
  /-- `HostWrite(n, v)` (43_host_operations.md R147 to R151). -/
  | hostWrite (n : Nat) (v : Word)
  /-- A host access as a byte-addressed access of the platform bus (20_memory.md R54 to R56). -/
  | bus (a : BusAccess)
  deriving DecidableEq, Repr

/-- The only events that PSEQ performs: "a tick, a host access and a hardware reset" (60_exceptions.md R169), a host
access being to one of the five registers. -/
inductive Event where
  | tick
  | reset
  | read (r : HostReg)
  | write (r : HostReg) (v : Word)
  deriving DecidableEq, Repr

/-- Faults: none. "PSEQ raises no synchronous exception. No instruction and no host access can trap, fault or abort"
(60_exceptions.md R165, R180), so the type has no constructor: nobody raises one. Safe: it removes no stop, since
whatever the spec does not define is a `Refusal`. -/
inductive Fault where
  deriving DecidableEq, Repr

/-- Refusals: what is outside the hardware and so outside the model (60_exceptions.md R180). -/
inductive Refusal where
  /-- Raised by no arm of `exec`: every instruction has its meaning. It stands for one that would have none. Safe. -/
  | notModelled (mnemonic : String)
  /-- Raised by a tick while RUN = 1 whose fetched word is reserved (30_encoding.md R77, 93 U5). Safe: the hardware
  never holds one and the spec defines no behaviour. -/
  | reservedWord (w : Byte)
  /-- Raised by a tick while RUN = 1 when the fetched word is legal and another word of the program store is
  reserved (30_encoding.md R80, 93 U5: "a model must refuse a program that contains one"). Safe. -/
  | illFormedProgram
  /-- Raised by a tick while RUN = 1 when PC is 6 or 7, which is never produced (10_state.md R27). Safe. -/
  | noProgramWord (pc : PcValue)
  /-- Raised by a host access to a register number above 4 (20_memory.md R56, 93 U6). Safe. -/
  | noSuchRegister (n : Nat)
  /-- Raised by a bus access that is not one whole 32-bit word (20_memory.md R55, 93 U6). Safe. -/
  | notWholeWord (bytes : Nat)
  /-- Raised by a bus access whose byte address is not a multiple of 4 (20_memory.md R55, 93 U6). Safe. -/
  | misaligned (addr : Nat)
  /-- Raised by a bus access below PSEQ_BASE, which names no PSEQ register (20_memory.md R54, R67). Safe. -/
  | belowBase (addr : Nat)
  deriving DecidableEq, Repr

/-- The state of the machine. -/
structure State where
  /-- X, the pulse-width register, in counts (10_state.md R21). -/
  x : Word
  /-- Y, the period counter, in counts (R22). -/
  y : Word
  /-- PRE, the period preload, in counts (R23). -/
  pre : Word
  /-- SLOT.VAL, the handoff slot's word, in counts (R25). -/
  slotVal : Word
  /-- SLOT.FULL, true when a value is pending (R26). -/
  slotFull : Bool
  /-- PC, the index of the instruction being executed (R27). -/
  pc : PcValue
  /-- PIN, the output line level, true when high (R28). -/
  pin : Bool
  /-- RUN, true when running (R29). -/
  run : Bool
  /-- PWMIN, in microseconds (R30). -/
  pwmin : Word
  /-- PWMAX, in microseconds (R30). -/
  pwmax : Word
  /-- The MODEL's own: the program store where it differs from PROG (20_memory.md R50 (1), R51; log entry 2). -/
  store : Memory
  /-- The MODEL's own: the steps of the environment and the host that lie ahead, first first; the empty list is an
  endless run of ticks (20_memory.md R60, R61, 60_exceptions.md R181; log entry 3). -/
  inputs : List Input
  /-- The MODEL's own: the word the last host read returned, the output "host read word" of 10_state.md R41
  (log entry 4). -/
  readData : Option Word
  deriving DecidableEq, Repr

/-- The machine right after reset: every piece of state at the value of 10_state.md R38; the program store as
configured; no outside step pending; nothing read yet (log entries 2, 3, 4, 8). -/
def State.reset : State where
  x := 0
  y := 0
  pre := 0
  slotVal := 0
  slotFull := false
  pc := 0
  pin := false
  run := false
  pwmin := 0
  pwmax := 0
  store := []
  inputs := []
  readData := none

/-- The output `pulse_out`, "equal to PIN at all times" (10_state.md R41). -/
def State.pulseOut (s : State) : Bool := s.pin

end Sys2Proof.Machine
end

