-- ==== Sys2Proof/Machine/Flags.lean ====
section
/-! DEFINITION. Flags.lean: the conditions of the two branches, and the two flags.

The hardware has two one-bit flags, SLOT.FULL and RUN, and no condition codes; a branch computes its condition from X
and Y in the same step and stores nothing (10_state.md R34). -/

namespace Sys2Proof.Machine

/-- The condition of `JNE`: X != Y, equality of the two words bit for bit (40_sequencer_instructions.md R96, R99). -/
def jneTaken (x y : Word) : Bool := decide (x ≠ y)

/-- The value `DJNZ` leaves in Y: `trunc_XLEN(Y - 1)` (40_sequencer_instructions.md R98). -/
def decremented (y : Word) : Word := y - 1#32

/-- The condition of `DJNZ`, on the value after the decrement: not zero (40_sequencer_instructions.md R98). -/
def djnzTaken (y1 : Word) : Bool := decide (y1 ≠ 0#32)

/-- RUN as the host reads it in CTRL: `zext_XLEN(RUN)` (43_host_operations.md R146). -/
def runWord (run : Bool) : Word := if run then 1#32 else 0#32

/-- Bit 0 of a word written to CTRL, the new RUN (10_state.md R32). -/
def ctrlRunBit (v : Word) : Bool := v.getLsbD 0

/-- Bit 1 of a word written to CTRL, RST (10_state.md R32). -/
def ctrlRstBit (v : Word) : Bool := v.getLsbD 1

end Sys2Proof.Machine
end

