-- ==== Sys2Proof/Machine/Operands.lean ====
section
/-! DEFINITION. Operands.lean: operand assembly (30_encoding.md R75).

The one operand form is the branch target of format J. Every other operand is implicit: an instruction names its
registers by what it is, and there is no immediate, no register field and no addressing mode (R75, 40 R101). -/

namespace Sys2Proof.Machine

/-- `target = zext_3(I[2:0])`: an absolute index into the program store, not relative to PC, not scaled and not
sign-extended (30_encoding.md R75). -/
def branchTarget (a : PcValue) : PcValue := a.setWidth 3

/-- Whether an index names a word of the program store (20_memory.md R51, 10_state.md R27). -/
def namesWord (p : PcValue) : Bool := decide (p ≤ 5#3)

end Sys2Proof.Machine
end

