-- ==== Sys2Proof/Syntax.lean ====
section
/-! DEFINITION. Syntax.lean: the six instructions (00_scope.md R2, 30_encoding.md R74, spec/opcode_table.json).

The only operand of the set is the branch target of format J (30_encoding.md R75), an absolute index into the program
store. It has the width of the PC; which of its values are legal is said in WellFormed.lean. -/

namespace Sys2Proof

/-- The instructions of the sequencer, one constructor per row of spec/opcode_table.json. -/
inductive Instr where
  /-- `CLRP`: drive the line low (40_sequencer_instructions.md R93). -/
  | clrp
  /-- `LDX`: take the slot into X if it is full (R94). -/
  | ldx
  /-- `LDY`: load Y from PRE (R95). -/
  | ldy
  /-- `JNE a`: jump to `a` if X is not equal to Y (R96). -/
  | jne (a : PcValue)
  /-- `SETP`: drive the line high (R97). -/
  | setp
  /-- `DJNZ a`: decrement Y, jump to `a` if the result is not zero (R98). -/
  | djnz (a : PcValue)
  deriving DecidableEq, Repr

end Sys2Proof
end

