-- ==== Sys2Proof/WellFormed.lean ====
section
/-! DEFINITION. WellFormed.lean: the one check on an instruction: a branch target is in 0 to 5 (30_encoding.md R78). -/

namespace Sys2Proof

/-- The target names a word of the program store (30_encoding.md R73, R78). -/
def targetLegal (a : PcValue) : Bool := decide (a ≤ 5#3)

/-- An instruction is well formed when its target, if it has one, is in 0 to 5 (30_encoding.md R77, R78). -/
def Instr.wellFormed : Instr → Bool
  | .clrp => true
  | .ldx => true
  | .ldy => true
  | .jne a => targetLegal a
  | .setp => true
  | .djnz a => targetLegal a

end Sys2Proof
end

