-- ==== Sys2Proof/Decode.lean ====
section
/-! DEFINITION. Decode.lean: the decoder, total on all 256 words, and the encoder (30_encoding.md R71 to R80).

Every instruction is one 8-bit word, so a fetch never spans two words and no byte order exists (20_memory.md R52). -/

namespace Sys2Proof

/-- Why a word is reserved: the four classes of 30_encoding.md R77. -/
inductive ReservedWord where
  /-- `op` is 110 or 111. -/
  | opcode (op : BitVec 3)
  /-- `z` is not 00. -/
  | zField (z : BitVec 2)
  /-- A format-N word whose `a` is not 000 (R72). -/
  | operand (a : BitVec 3)
  /-- A format-J word whose target is 6 or 7 (R78). -/
  | target (a : BitVec 3)
  deriving DecidableEq, Repr

/-- Field `op`, bits 7:5 (30_encoding.md R71). -/
def opField (w : Byte) : BitVec 3 := w.extractLsb' 5 3

/-- Field `z`, bits 4:3 (30_encoding.md R71). -/
def zField (w : Byte) : BitVec 2 := w.extractLsb' 3 2

/-- Field `a`, bits 2:0 (30_encoding.md R71). -/
def aField (w : Byte) : BitVec 3 := w.extractLsb' 0 3

/-- Format N (30_encoding.md R72): the instruction, if `a` is 000. -/
def decodeN (i : Instr) (w : Byte) : Except ReservedWord Instr :=
  if aField w = 0#3 then .ok i else .error (.operand (aField w))

/-- Format J (30_encoding.md R73): the instruction with target `a`, if `a` is in 0 to 5. -/
def decodeJ (i : PcValue → Instr) (w : Byte) : Except ReservedWord Instr :=
  if targetLegal (aField w) then .ok (i (aField w)) else .error (.target (aField w))

/-- The decoder of 30_encoding.md R76. ILLEGAL is `.error` with the class of R77 the word falls in. -/
def decode (w : Byte) : Except ReservedWord Instr :=
  if zField w = 0#2 then
    match opField w with
    | 0b000#3 => decodeN .clrp w
    | 0b001#3 => decodeN .ldx w
    | 0b010#3 => decodeN .ldy w
    | 0b011#3 => decodeJ .jne w
    | 0b100#3 => decodeN .setp w
    | 0b101#3 => decodeJ .djnz w
    | op => .error (.opcode op)
  else if opField w = 0b110#3 ∨ opField w = 0b111#3 then .error (.opcode (opField w))
  else .error (.zField (zField w))

/-- Whether a word is one of the sixteen instructions (30_encoding.md R77). -/
def isLegalWord (w : Byte) : Bool :=
  match decode w with
  | .ok _ => true
  | .error _ => false

/-- `op ++ z ++ a` with `z` = 00 (30_encoding.md R71 to R73). -/
def encodeFields (op a : BitVec 3) : Byte := op ++ 0#2 ++ a

/-- The encoder of 30_encoding.md R76, which defines it on the sixteen well-formed instructions. What it answers for the
ill-formed terms `JNE` and `DJNZ` with target 6 or 7 (0x66, 0x67, 0xA6, 0xA7) is the model's own: DESIGN CHOICE, safe (log
entry 12). Those four words are reserved (R77), so no such term comes back from `decode`. -/
def encode : Instr → Byte
  | .clrp => encodeFields 0b000#3 0#3
  | .ldx => encodeFields 0b001#3 0#3
  | .ldy => encodeFields 0b010#3 0#3
  | .jne a => encodeFields 0b011#3 a
  | .setp => encodeFields 0b100#3 0#3
  | .djnz a => encodeFields 0b101#3 a

/-- The instruction the decoder reads from a word of the opcode table. Every row has 8 bits, and an instruction of
another length does not exist (30_encoding.md R70, R79). -/
def decodeTableWord (nbits w : Nat) : Option Instr :=
  if nbits = 8 then (decode (BitVec.ofNat 8 w)).toOption else none

end Sys2Proof
end

