-- ==== Sys2Proof/Machine/Ops.lean ====
section
/-! DEFINITION. Ops.lean: the named operations over the program store, the program counter, the handoff slot, the pin
and reset.

There is no operation that takes an exception and none that returns from one: "Trap entry, trap return and nesting:
none exist. No state is saved anywhere by any event" (60_exceptions.md R170). The one event that changes the course of
the machine from outside is reset, `State.resetPseq`. -/

namespace Sys2Proof.Machine

/-! ### The program store (20_memory.md R50 (1), R51, R52) -/

/-- The entry a list of cells holds for an index. -/
def Memory.entry (a : Nat) : Memory → Option Byte
  | [] => none
  | c :: rest => if c.1 = a then some c.2 else Memory.entry a rest

/-- The word at an index of the program store, `PROG[a]`: the listed word, else the configured one; nothing at an index
that names no word (20_memory.md R51, R52). -/
def Memory.readWord (m : Memory) (a : Nat) : Option Byte :=
  if a < Config.nprog then
    match Memory.entry a m with
    | some b => some b
    | none => Config.unlisted a
  else none

/-- The canonical form: indices strictly rising, each names a word of the store, and no entry equals what an unlisted
index reads as. -/
abbrev Memory.wf (m : Memory) : Prop :=
  (m.map Prod.fst).Pairwise (· < ·) ∧ ∀ c ∈ m, c.1 < Config.nprog ∧ Config.unlisted c.1 ≠ some c.2

/-- Remove the entry of an index. -/
def Memory.removeEntry (a : Nat) : Memory → Memory
  | [] => []
  | c :: rest => if c.1 = a then rest else c :: Memory.removeEntry a rest

/-- Set the entry of an index, keeping the indices rising. -/
def Memory.setEntry (a : Nat) (b : Byte) : Memory → Memory
  | [] => [(a, b)]
  | c :: rest =>
    if a < c.1 then (a, b) :: c :: rest
    else if a = c.1 then (a, b) :: rest
    else c :: Memory.setEntry a b rest

/-- Place a word in the program store when the store is configured, BEFORE a run. No step of the machine calls it: the
store is read-only (20_memory.md R51, log entry 2). An index that names no word holds nothing and is left alone. -/
def Memory.writeWord (m : Memory) (a : Nat) (b : Byte) : Memory :=
  if a < Config.nprog then
    if Config.unlisted a = some b then Memory.removeEntry a m else Memory.setEntry a b m
  else m

/-- Place words one after another from index `a` on. -/
def Memory.writeWords (m : Memory) (a : Nat) : List Byte → Memory
  | [] => m
  | b :: rest => Memory.writeWords (Memory.writeWord m a b) (a + 1) rest

/-- The store whose PROG is the given words, `PROG[0]` first: the parameter PROG of 20_memory.md R51 at another value. -/
def Memory.ofWords (ws : List Byte) : Memory := Memory.writeWords [] 0 ws

/-- A program is well formed when each of its six words decodes to an instruction (30_encoding.md R80). -/
def Memory.programWellFormed (m : Memory) : Bool :=
  (List.range Config.nprog).all fun a =>
    match Memory.readWord m a with
    | some w => isLegalWord w
    | none => false

/-! ### The program counter (20_memory.md R53) -/

/-- `next(p) = p + 1` for 0 to 4 and `next(5) = 0` (20_memory.md R53). For 6 and 7, where the spec defines nothing, a
free value (log entry 5); no step asks for it, since a fetch at 6 or 7 is refused. -/
def nextPc (p : PcValue) : PcValue :=
  if p ≤ 4#3 then p + 1#3 else if p = 5#3 then 0#3 else Config.nextOutside p

/-- `pc <- t` (00_scope.md R10). -/
def State.goto (s : State) (t : PcValue) : State := { s with pc := t }

/-- `pc <- next(p)` (00_scope.md R10). -/
def State.advance (s : State) : State := s.goto (nextPc s.pc)

/-- `if c then pc <- t else pc <- next(p)`: the two outcomes of a branch (40_sequencer_instructions.md R96, R98). -/
def State.branch (s : State) (c : Bool) (t : PcValue) : State := if c then s.goto t else s.advance

/-! ### X, Y and the pin (10_state.md R21, R22, R28) -/

/-- `X <- v`. -/
def State.setX (s : State) (v : Word) : State := { s with x := v }

/-- `Y <- v`. -/
def State.setY (s : State) (v : Word) : State := { s with y := v }

/-- `PIN <- b`. -/
def State.setPin (s : State) (b : Bool) : State := { s with pin := b }

/-! ### The handoff slot (20_memory.md R57, R58) -/

/-- What `SlotTake()` returns: the pending value, or nothing when the slot is empty (20_memory.md R57). -/
def State.slotTaken (s : State) : Option Word := if s.slotFull then some s.slotVal else none

/-- What `SlotTake()` leaves: FULL cleared, VAL unchanged (20_memory.md R57). -/
def State.slotEmptied (s : State) : State := { s with slotFull := false }

/-- `SlotPut(v)`: `SLOT.VAL <- v; SLOT.FULL <- 1`, whatever FULL was (20_memory.md R58). -/
def State.slotPut (s : State) (v : Word) : State := { s with slotVal := v, slotFull := true }

/-! ### Reset (10_state.md R38, 70_reset_and_hazards.md R185) -/

/-- Reset: every piece of state of 10_state.md R20 takes its reset value in one step. The program store is not state
and is unaffected (70_reset_and_hazards.md R185); what lies outside the block, the pending steps and the word the host
read last, is unaffected too (log entry 10). -/
def State.resetPseq (s : State) : State :=
  { State.reset with store := s.store, inputs := s.inputs, readData := s.readData }

/-! ### Fetch and decode (20_memory.md R52, 40_sequencer_instructions.md R92) -/

/-- `decode(PROG[PC])`: the instruction PC names, or why the machine refuses to run it. A fetch has no side effect
(20_memory.md R52). A reserved word anywhere in the store makes the program ill formed, and an ill-formed program is
refused (30_encoding.md R77, R80, 93_implementation_defined.md U5; log entry 6). -/
def fetchInstr (s : State) : Except Refusal Instr :=
  match Memory.readWord s.store s.pc.toNat with
  | none => .error (.noProgramWord s.pc)
  | some w =>
    match decode w with
    | .error _ => .error (.reservedWord w)
    | .ok i => if Memory.programWellFormed s.store then .ok i else .error .illFormedProgram

end Sys2Proof.Machine
end

