-- ==== Sys2Proof/Machine/Branch.lean ====
section
/-! DEFINITION. Branch.lean: the two conditional branches, `JNE` and `DJNZ` (40_sequencer_instructions.md R100). -/

namespace Sys2Proof.Machine

/-- `JNE a`: `if X != Y then pc <- a else pc <- next(p)` (40_sequencer_instructions.md R96). -/
def execJne (a : PcValue) (s : State) : Host.Outcome State Fault Refusal :=
  .next (s.branch (jneTaken s.x s.y) (branchTarget a))

/-- `DJNZ a`: decrement Y modulo 2^XLEN, then jump if the new value is not zero (40_sequencer_instructions.md R98). -/
def execDjnz (a : PcValue) (s : State) : Host.Outcome State Fault Refusal :=
  .next ((s.setY (decremented s.y)).branch (djnzTaken (decremented s.y)) (branchTarget a))

end Sys2Proof.Machine
end

