-- ==== Sys2Proof/Machine/Load.lean ====
section
/-! DEFINITION. Load.lean: the two loads, `LDX` and `LDY` (40_sequencer_instructions.md R101). -/

namespace Sys2Proof.Machine

/-- `LDX`: take the slot without blocking; a value present goes to X and empties the slot, an empty slot leaves X
(40_sequencer_instructions.md R94, 20_memory.md R57). -/
def execLdx (s : State) : Host.Outcome State Fault Refusal :=
  match s.slotTaken with
  | some v => .next (s.slotEmptied.setX v).advance
  | none => .next s.advance

/-- `LDY`: `Y <- PRE; pc <- next(p)` (40_sequencer_instructions.md R95). -/
def execLdy (s : State) : Host.Outcome State Fault Refusal := .next (s.setY s.pre).advance

end Sys2Proof.Machine
end

