-- ==== Sys2Proof/Machine/Pin.lean ====
section
/-! DEFINITION. Pin.lean: the instructions that drive the output line, `CLRP` and `SETP`. -/

namespace Sys2Proof.Machine

/-- `CLRP`: `PIN <- 0; pc <- next(p)` (40_sequencer_instructions.md R93). -/
def execClrp (s : State) : Host.Outcome State Fault Refusal := .next (s.setPin false).advance

/-- `SETP`: `PIN <- 1; pc <- next(p)` (40_sequencer_instructions.md R97). -/
def execSetp (s : State) : Host.Outcome State Fault Refusal := .next (s.setPin true).advance

end Sys2Proof.Machine
end

