-- ==== Sys2Proof/Machine/Dispatch.lean ====
section
/-! DEFINITION. Dispatch.lean: one arm per instruction (40_sequencer_instructions.md R92). -/

namespace Sys2Proof.Machine

/-- The instruction step, after fetch and decode (40_sequencer_instructions.md R92): exactly one of six rules. -/
def exec (i : Instr) (s : State) : Host.Outcome State Fault Refusal :=
  match i with
  | .clrp => Sys2Proof.Machine.execClrp s
  | .ldx => Sys2Proof.Machine.execLdx s
  | .ldy => Sys2Proof.Machine.execLdy s
  | .jne a => Sys2Proof.Machine.execJne a s
  | .setp => Sys2Proof.Machine.execSetp s
  | .djnz a => Sys2Proof.Machine.execDjnz a s

end Sys2Proof.Machine
end

