-- ==== Sys2Proof/Machine/Mapper.lean ====
section
/-! DEFINITION. Mapper.lean: the angle-to-count mapper (42_angle_mapper.md R130, R131).

A pure function over the unbounded integers, truncated to a word at the end (R137: a model computes over the integers).
Nothing is clamped or checked (R134). -/

namespace Sys2Proof.Machine

/-- `Num(mn, mx, a) = ANGLE_SPAN * mn + (mx - mn) * a` (42_angle_mapper.md R131). -/
def mapNum (mn mx a : Int) : Int := Config.angleSpan * mn + (mx - mn) * a

/-- `T(mn, mx, a) = floor(Num / (ANGLE_SPAN * TPC))`, rounded toward minus infinity (42_angle_mapper.md R131,
00_scope.md R9): `Int.fdiv` is that division. -/
def mapT (mn mx a : Int) : Int := (mapNum mn mx a).fdiv (Config.angleSpan * Config.tpc)

/-- `Map(mn, mx, a) = trunc_XLEN(T(mn, mx, a))` (42_angle_mapper.md R131, R135; log entry 9). -/
def mapCount (mn mx a : Int) : Word := BitVec.ofInt 32 (mapT mn mx a)

/-- `Map(u(PWMIN), u(PWMAX), s(v))`: the operands as the ANGLE write gives them (42_angle_mapper.md R130, R141,
43_host_operations.md R151). -/
def mapAngle (pwmin pwmax v : Word) : Word := mapCount pwmin.toNat pwmax.toNat v.toInt

end Sys2Proof.Machine
end

