-- ==== Sys2Proof/Machine/HostPort.lean ====
section
/-! DEFINITION. HostPort.lean: the host's register accesses (43_host_operations.md R145 to R152) and how a platform bus
carries them (20_memory.md R54 to R56). -/

namespace Sys2Proof.Machine

/-- Register number `n` (10_state.md R33); 5 and above do not exist (20_memory.md R56). -/
def regOfNumber : Nat → Option HostReg
  | 0 => some .ctrl
  | 1 => some .pre
  | 2 => some .pwmin
  | 3 => some .pwmax
  | 4 => some .angle
  | _ => none

/-- What a read of a host register returns (43_host_operations.md R146). -/
def regRead (r : HostReg) (s : State) : Word :=
  match r with
  | .ctrl => runWord s.run
  | .pre => s.pre
  | .pwmin => s.pwmin
  | .pwmax => s.pwmax
  | .angle => 0#32

/-- A write to CTRL: RST wins over RUN; otherwise RUN takes bit 0 (43_host_operations.md R147). -/
def writeCtrl (v : Word) (s : State) : State :=
  if ctrlRstBit v then s.resetPseq else { s with run := ctrlRunBit v }

/-- A write to PRE: ignored while RUN = 1 (43_host_operations.md R148). -/
def writePre (v : Word) (s : State) : State := if s.run then s else { s with pre := v }

/-- A write to PWMIN, at any time (43_host_operations.md R149). -/
def writePwmin (v : Word) (s : State) : State := { s with pwmin := v }

/-- A write to PWMAX, at any time (43_host_operations.md R150). -/
def writePwmax (v : Word) (s : State) : State := { s with pwmax := v }

/-- A write to ANGLE: map the angle with the calibration of this moment and put the count in the slot, all in one step
(43_host_operations.md R151, 42_angle_mapper.md R139). -/
def writeAngle (v : Word) (s : State) : State := s.slotPut (mapAngle s.pwmin s.pwmax v)

/-- `HostWrite(n, v)` (43_host_operations.md R147 to R151). -/
def regWrite (r : HostReg) (v : Word) (s : State) : State :=
  match r with
  | .ctrl => writeCtrl v s
  | .pre => writePre v s
  | .pwmin => writePwmin v s
  | .pwmax => writePwmax v s
  | .angle => writeAngle v s

/-- `HostRead(n)`: the word goes to the host and no state of PSEQ changes (43_host_operations.md R146). -/
def hostReads (r : HostReg) (s : State) : State := { s with readData := some (regRead r s) }

/-- The register a bus access names: one whole aligned 32-bit word at `PSEQ_BASE + 4 * n`, `n` in 0 to 4
(20_memory.md R54 to R56, R67). Anything else is not a PSEQ operation and is refused (93 U6; log entry 7). -/
def busRegister (a : BusAccess) : Except Refusal HostReg :=
  if a.bytes ≠ 4 then .error (.notWholeWord a.bytes)
  else if a.addr % 4 ≠ 0 then .error (.misaligned a.addr)
  else if a.addr < Config.pseqBase then .error (.belowBase a.addr)
  else
    match regOfNumber ((a.addr - Config.pseqBase) / 4) with
    | some r => .ok r
    | none => .error (.noSuchRegister ((a.addr - Config.pseqBase) / 4))

/-- The event a host access of the given kind to a register is. -/
def accessEvent (r : HostReg) : BusKind → Event
  | .read => .read r
  | .write v => .write r v

/-- The event an input is, or why it is not a PSEQ operation (20_memory.md R55, R56). -/
def eventOf : Input → Except Refusal Event
  | .tick => .ok .tick
  | .rst => .ok .reset
  | .hostRead n =>
    match regOfNumber n with
    | some r => .ok (.read r)
    | none => .error (.noSuchRegister n)
  | .hostWrite n v =>
    match regOfNumber n with
    | some r => .ok (.write r v)
    | none => .error (.noSuchRegister n)
  | .bus a =>
    match busRegister a with
    | .ok r => .ok (accessEvent r a.kind)
    | .error e => .error e

/-- The first of the steps that lie ahead: with none listed, ticks go on arriving (60_exceptions.md R181; log
entry 3). -/
def nextInput (s : State) : Input :=
  match s.inputs with
  | [] => .tick
  | i :: _ => i

/-- The state with that input consumed. -/
def State.consumed (s : State) : State := { s with inputs := s.inputs.tail }

end Sys2Proof.Machine
end

