-- ==== Sys2Proof/Machine/Sequencer.lean ====
section
/-! DEFINITION. Sequencer.lean: what one event does: a tick (40_sequencer_instructions.md R90 to R92), a reset or a
host access. -/

namespace Sys2Proof.Machine

/-- A tick: with RUN = 1 exactly one instruction is fetched, decoded and executed; with RUN = 0 nothing changes
(40_sequencer_instructions.md R90, R91, R92). -/
def tick (s : State) : Host.Outcome State Fault Refusal :=
  if s.run then
    match fetchInstr s with
    | .ok i => exec i s
    | .error r => .refused r
  else .next s

/-- One atomic event of the total order (20_memory.md R60, 60_exceptions.md R169). -/
def perform (e : Event) (s : State) : Host.Outcome State Fault Refusal :=
  match e with
  | .tick => tick s
  | .reset => .next s.resetPseq
  | .read r => .next (hostReads r s)
  | .write r v => .next (regWrite r v s)

/-- One input: the event it is, performed, or the reason it is no PSEQ operation. -/
def performInput (i : Input) (s : State) : Host.Outcome State Fault Refusal :=
  match eventOf i with
  | .ok e => perform e s
  | .error r => .refused r

end Sys2Proof.Machine
end

