-- ==== Sys2Proof/Machine/Step.lean ====
section
/-! DEFINITION. Step.lean: one step of the machine (20_memory.md R60, R61): the first input of the total order that lies
ahead takes effect, whole, on the state all steps before it left. -/

namespace Sys2Proof.Machine

/-- One step: take the next input and perform it. -/
def step (s : State) : Host.Outcome State Fault Refusal := performInput (nextInput s) s.consumed

/-- `s` with the instruction word `w` where the next step fetches: at index PC of the program store, with RUN set and a
tick as the next input, so that the very next step fetches and runs it (log entry 2). An instruction has 8 bits
(30_encoding.md R70), so `nbits` is 8 for every row. -/
def State.withFetchWord (s : State) (nbits w : Nat) : State :=
  { s with
    run := true
    inputs := .tick :: s.inputs
    store := Memory.writeWord s.store s.pc.toNat (BitVec.ofNat 8 (w % 2 ^ nbits)) }

end Sys2Proof.Machine
end

