-- ==== Sys2Proof/Machine/Assembler.lean ====
section
/-! DEFINITION. Assembler.lean: the assembler syntax of 30_encoding.md R81, on lines already split into their parts.

The assembler tool is out of scope (00_scope.md R5 (2)); what R81 says of a program text is small and is given here on
the parts of a line: splitting a text at white space, ':' and ';' is left to the tool (log entry 13). -/

namespace Sys2Proof.Machine

/-- The operand of a line: none, a decimal index, or a label (30_encoding.md R81). -/
inductive AsmOperand where
  | none
  | index (n : Nat)
  | label (name : String)
  deriving DecidableEq, Repr

/-- One line, `[label:] mnemonic [operand]`, its comment dropped (30_encoding.md R81). -/
structure AsmLine where
  label : Option String := none
  mnemonic : String
  operand : AsmOperand := .none
  deriving DecidableEq, Repr

/-- "a label names the index (0 to 5) of the line it stands on" (30_encoding.md R81). -/
def Asm.labelIndex (ls : List AsmLine) (name : String) : Option Nat :=
  ls.findIdx? fun l => decide (l.label = some name)

/-- No label stands on two lines; R81 gives such a text no meaning, and it is refused (log entry 13). -/
def Asm.labelsDistinct (ls : List AsmLine) : Bool := decide (ls.filterMap (·.label)).Nodup

/-- The target an operand gives: an index 0 to 5 (30_encoding.md R78, R81). -/
def Asm.target (ls : List AsmLine) : AsmOperand → Option PcValue
  | .none => Option.none
  | .index n => if n ≤ 5 then some (BitVec.ofNat 3 n) else Option.none
  | .label name =>
    match Asm.labelIndex ls name with
    | some n => if n ≤ 5 then some (BitVec.ofNat 3 n) else Option.none
    | Option.none => Option.none

/-- The instruction of a mnemonic that takes no operand (30_encoding.md R81). -/
def Asm.plain (mnemonic : String) : Option Instr :=
  if mnemonic = "CLRP" then some .clrp
  else if mnemonic = "LDX" then some .ldx
  else if mnemonic = "LDY" then some .ldy
  else if mnemonic = "SETP" then some .setp
  else Option.none

/-- The instruction of a mnemonic that takes one operand, a target (30_encoding.md R81). -/
def Asm.jump (mnemonic : String) (t : PcValue) : Option Instr :=
  if mnemonic = "JNE" then some (.jne t)
  else if mnemonic = "DJNZ" then some (.djnz t)
  else Option.none

/-- The instruction of one line (30_encoding.md R81, R82: no pseudo-instruction, no directive, no macro). -/
def Asm.line (ls : List AsmLine) (l : AsmLine) : Option Instr :=
  match l.operand with
  | .none => Asm.plain l.mnemonic
  | op => (Asm.target ls op).bind (Asm.jump l.mnemonic)

/-- "A program text is six instruction lines", the first of which assembles to `PROG[0]` (30_encoding.md R81). -/
def Asm.assemble (ls : List AsmLine) : Option (List Byte) :=
  if ls.length = 6 ∧ Asm.labelsDistinct ls then (ls.mapM (Asm.line ls)).map (·.map encode) else Option.none

end Sys2Proof.Machine
end

