-- ==== Sys2Proof/Machine/Driver.lean ====
section
/-! DEFINITION. Driver.lean: the source's host operations, each a sequence of host steps (43_host_operations.md R153).

The parameters `executionRate` and `outputLine` of `initialize` have no register: the rate is that of the `tick` input
and the line is bound outside the block (R154). Software that validates its arguments does so before it writes the
registers; the hardware checks nothing (R156, 60_exceptions.md R167). -/

namespace Sys2Proof.Machine

/-- `initialize`: reset, PRE, PWMIN, PWMAX, then RUN, in that order (43_host_operations.md R155). -/
def Driver.initialize (periodTicks pulseWidthMinUs pulseWidthMaxUs : Word) : List Input :=
  [.hostWrite 0 0x00000002#32, .hostWrite 1 periodTicks, .hostWrite 2 pulseWidthMinUs,
   .hostWrite 3 pulseWidthMaxUs, .hostWrite 0 0x00000001#32]

/-- `setAngle(angleDegrees)` for an integer angle: one write of `trunc_XLEN(angleDegrees)` to ANGLE
(43_host_operations.md R157). -/
def Driver.setAngle (angleDegrees : Int) : List Input := [.hostWrite 4 (BitVec.ofInt 32 angleDegrees)]

/-- Start, and resume after a stop (43_host_operations.md R158). -/
def Driver.start : List Input := [.hostWrite 0 0x00000001#32]

/-- Stop: the sequencer freezes and the line holds its level (43_host_operations.md R159). -/
def Driver.stop : List Input := [.hostWrite 0 0x00000000#32]

/-- Re-initialize: `initialize` again, its reset included (43_host_operations.md R160). -/
def Driver.reinitialize (periodTicks pulseWidthMinUs pulseWidthMaxUs : Word) : List Input :=
  Driver.initialize periodTicks pulseWidthMinUs pulseWidthMaxUs

/-- The preload for a wanted period of `ticks` ticks, `PRE = T / 2 - 2` for even `T` with `T >= 6`
(41_reference_program.md R126): a number software computes, not the hardware. -/
def Driver.preloadFor (ticks : Nat) : Word := BitVec.ofNat 32 (ticks / 2 - 2)

end Sys2Proof.Machine
end

