-- ==== Sys2Proof/Safety.lean ====
section
/-! DEFINITION. Safety.lean: what counts as a sound state and a legal run, what is observed of a run, and the terms in
which claims speak of it. Nothing here is part of the machine: `step` calls none of it. -/

namespace Sys2Proof.Machine

/-! ### Sound states and legal inputs -/

/-- A sound state: PC names a word (10_state.md R39), the program is well formed (30_encoding.md R80), and the list that
holds the program store is in its canonical form (log entry 2). -/
abbrev State.Sound (s : State) : Prop :=
  namesWord s.pc = true ∧ Memory.programWellFormed s.store = true ∧ Memory.wf s.store

/-- An input is legal when it is a PSEQ operation: a tick, a reset, or a whole-word access to one of the five registers
(20_memory.md R54 to R56). -/
def legalInput (i : Input) : Bool :=
  match eventOf i with
  | .ok _ => true
  | .error _ => false

/-! ### Events of a state -/

/-- The next step of the total order is this event. -/
abbrev State.nextIs (s : State) (e : Event) : Prop := eventOf (nextInput s) = .ok e

/-- Whether an event is a reset: `rst`, or a write of CTRL with bit 1 set (70_reset_and_hazards.md R185). -/
def eventResets : Event → Bool
  | .tick => false
  | .reset => true
  | .read _ => false
  | .write r v => decide (r = .ctrl) && ctrlRstBit v

/-- The next step of the total order is a reset. -/
def State.nextResets (s : State) : Bool :=
  match eventOf (nextInput s) with
  | .ok e => eventResets e
  | .error _ => false

/-- The next step of the total order executes the instruction `i`. -/
abbrev State.nextRuns (s : State) (i : Instr) : Prop := s.nextIs .tick ∧ s.run = true ∧ fetchInstr s = .ok i

/-! ### Runs and what is observed of them (60_exceptions.md R182) -/

/-- `k` steps, ended early by a refusal. -/
def runSteps : Nat → State → Host.Outcome State Fault Refusal
  | 0, s => .next s
  | k + 1, s =>
    match step s with
    | .next t => runSteps k t
    | .fault r => .fault r
    | .refused r => .refused r

/-- The pin trace over the next `k` steps of the machine: `pulse_out` after each step of the sequencer among them
(00_scope.md R11, 60_exceptions.md R182). -/
def pinTrace : Nat → State → List Bool
  | 0, _ => []
  | k + 1, s =>
    match step s with
    | .next t => if s.run = true ∧ eventOf (nextInput s) = .ok .tick then t.pulseOut :: pinTrace k t else pinTrace k t
    | .fault _ => []
    | .refused _ => []

/-- The next `k` steps are all performed, and each of the states they start from meets `p`. -/
def holdsAlong (p : State → Bool) : Nat → State → Bool
  | 0, _ => true
  | k + 1, s =>
    p s &&
      match step s with
      | .next t => holdsAlong p k t
      | .fault _ => false
      | .refused _ => false

/-- The next step neither takes from the slot (it does not execute `LDX`, the only instruction that performs `SlotTake`,
20_memory.md R57) nor resets. -/
def State.nextTakesNothing (s : State) : Bool := decide (¬ s.nextRuns .ldx) && !s.nextResets

/-- The next step is no `SlotPut`: no write of the ANGLE register (20_memory.md R58). -/
def State.nextPutsNothing (s : State) : Bool :=
  match eventOf (nextInput s) with
  | .ok (.write r _) => decide (r ≠ .angle)
  | .ok .tick => true
  | .ok .reset => true
  | .ok (.read _) => true
  | .error _ => true

/-- The next step leaves the slot alone: it neither takes, nor resets, nor puts. -/
def State.nextLeavesSlot (s : State) : Bool := s.nextTakesNothing && s.nextPutsNothing

/-- What the host can know: RUN, PRE, PWMIN, PWMAX and the word it read last (10_state.md R36, decision D25). -/
abbrev State.hostView (s : State) : Bool × Word × Word × Word × Option Word :=
  (s.run, s.pre, s.pwmin, s.pwmax, s.readData)

/-! ### Frames -/

/-- No instruction writes PRE, SLOT.VAL, RUN, PWMIN, PWMAX or a word of the program store (10_state.md R40,
20_memory.md R51); nor does it consume an input or touch what the host has read. -/
abbrev sequencerFrame (s t : State) : Prop :=
  t.pre = s.pre ∧ t.slotVal = s.slotVal ∧ t.run = s.run ∧ t.pwmin = s.pwmin ∧ t.pwmax = s.pwmax ∧
    t.inputs = s.inputs ∧ t.readData = s.readData ∧
    t.store = s.store ∧ ∀ a, Memory.readWord t.store a = Memory.readWord s.store a

/-! ### The waveform of the reference program (41_reference_program.md R114 to R122) -/

/-- `N`, the number of loop iterations of a period with preload `p` (R115). -/
def periodIterations (p : Word) : Nat := if p = 0#32 then 2 ^ 32 else p.toNat

/-- `kstar = trunc_XLEN(P - X)`, the iteration in which Y equals X (R116). -/
def matchIteration (p x : Word) : Nat := (p - x).toNat

/-- Whether the period has a match (R116). -/
def hasMatch (p x : Word) : Bool := decide (matchIteration p x < periodIterations p)

/-- `L`, the length of a period in ticks (R118). -/
def periodLength (p x : Word) : Nat :=
  if hasMatch p x then 2 * periodIterations p + 4 else 2 * periodIterations p + 3

/-- The value X has after the `LDX` of a period that begins in `s` (R124). -/
def sampledX (s : State) : Word := if s.slotFull then s.slotVal else s.x

end Sys2Proof.Machine
end

