-- ==== Sys2Proof/Certificates/Slice0/Obligations.lean ====
section
/-! DEFINITION. Obligations.lean: the statements for the provers, in the order of the spec's files. Each docstring names
the rule or section of spec/ a statement formalises; where it rests on a choice of the model, it names the log entry.

A statement about a step is made for every state whose next input is the one it speaks of (`s.inputs = … :: rest`), so
for every order in which the two agents' steps can fall (20_memory.md R60). -/

open Sys2Proof Sys2Proof.Machine

/-! ### Encoding (30_encoding.md) -/

/-- 30_encoding.md R74: the opcode map. A word is an instruction exactly when `I & mask = match` and, for format J,
`I[2:0] <= 5`. -/
def Obligations.DecodeMatchesOpcodeMap : Prop :=
  ∀ w : Byte,
    (decode w = .ok .clrp ↔ w &&& 0xFF#8 = 0x00#8) ∧
    (decode w = .ok .ldx ↔ w &&& 0xFF#8 = 0x20#8) ∧
    (decode w = .ok .ldy ↔ w &&& 0xFF#8 = 0x40#8) ∧
    (∀ a : PcValue, decode w = .ok (.jne a) ↔ w &&& 0xF8#8 = 0x60#8 ∧ w.extractLsb' 0 3 = a ∧ a ≤ 5#3) ∧
    (decode w = .ok .setp ↔ w &&& 0xFF#8 = 0x80#8) ∧
    (∀ a : PcValue, decode w = .ok (.djnz a) ↔ w &&& 0xF8#8 = 0xA0#8 ∧ w.extractLsb' 0 3 = a ∧ a ≤ 5#3)

/-- 30_encoding.md R76: the encoder's table, its branches for `a` in 0 to 5, both round trips, and ILLEGAL for every word that encodes no well-formed
instruction; together they fix the decoder on all 256 words. -/
def Obligations.EncoderTableAndRoundTrips : Prop :=
  encode .clrp = 0x00#8 ∧ encode .ldx = 0x20#8 ∧ encode .ldy = 0x40#8 ∧ encode .setp = 0x80#8 ∧
  (∀ a : PcValue, a ≤ 5#3 → encode (.jne a) = 0x60#8 + a.setWidth 8) ∧
  (∀ a : PcValue, a ≤ 5#3 → encode (.djnz a) = 0xA0#8 + a.setWidth 8) ∧
  (∀ i : Instr, i.wellFormed = true → decode (encode i) = .ok i) ∧
  (∀ (w : Byte) (i : Instr), decode w = .ok i → encode i = w ∧ i.wellFormed = true) ∧
  (∀ w : Byte, (∃ r, decode w = .error r) ↔ ¬ ∃ i : Instr, i.wellFormed = true ∧ encode i = w)

/-- 30_encoding.md section 4 (R77, R80): sixteen words are instructions, and 240 are reserved in classes of 64, 144, 28 and 4.
The last clause is the model's choice (log entry 6): the spec says that a model must refuse a program that contains a
reserved word and does not say when; this model refuses it at every tick with RUN = 1, whichever word PC names, even when
the word at PC is legal. -/
def Obligations.ReservedWordsAreRefused : Prop :=
  (List.range 256).filter (fun n => isLegalWord (BitVec.ofNat 8 n)) =
      [0x00, 0x20, 0x40, 0x60, 0x61, 0x62, 0x63, 0x64, 0x65, 0x80, 0xA0, 0xA1, 0xA2, 0xA3, 0xA4, 0xA5] ∧
  (List.range 256).countP (fun n => match decode (BitVec.ofNat 8 n) with | .error (.opcode _) => true | _ => false) = 64 ∧
  (List.range 256).countP (fun n => match decode (BitVec.ofNat 8 n) with | .error (.zField _) => true | _ => false) = 144 ∧
  (List.range 256).countP (fun n => match decode (BitVec.ofNat 8 n) with | .error (.operand _) => true | _ => false) = 28 ∧
  (List.range 256).countP (fun n => match decode (BitVec.ofNat 8 n) with | .error (.target _) => true | _ => false) = 4 ∧
  ∀ (s : State) (a : Nat) (w : Byte), s.nextIs .tick → s.run = true → Memory.readWord s.store a = some w →
    isLegalWord w = false → ∃ r, step s = .refused r

/-- Words written out bit by bit from 30_encoding.md R74 and the words of the reference program (95_test_vectors.md
2.1, 41_reference_program.md R110) decode to the instructions they stand for. -/
def Obligations.WrittenWordsDecode : Prop :=
  decode 0b00000000#8 = .ok .clrp ∧ decode 0b00100000#8 = .ok .ldx ∧ decode 0b01000000#8 = .ok .ldy ∧
  decode 0b01100101#8 = .ok (.jne 5) ∧ decode 0b10000000#8 = .ok .setp ∧ decode 0b10100011#8 = .ok (.djnz 3) ∧
  decode 0b01100000#8 = .ok (.jne 0) ∧ decode 0b10100101#8 = .ok (.djnz 5)

/-- Decode and encode agree through the program store: six well-formed instructions, encoded and placed as PROG, form a
well-formed program in canonical form, and the fetch at each PC answers the instruction of that index (30_encoding.md
R76, R80; 20_memory.md R51, R52; how a program is placed is the model's, log entry 2). -/
def Obligations.PlacedProgramIsFetchedBack : Prop :=
  ∀ p : List Instr, p.length = 6 → (∀ i ∈ p, i.wellFormed = true) →
    Memory.wf (Memory.ofWords (p.map encode)) ∧
    Memory.programWellFormed (Memory.ofWords (p.map encode)) = true ∧
    ∀ (s : State) (k : Nat) (hk : k < p.length), s.store = Memory.ofWords (p.map encode) → s.pc.toNat = k →
      fetchInstr s = .ok p[k]

/-- 30_encoding.md R81: the text of the reference program, with its labels, assembles to the words of PROG
(95_test_vectors.md 2.1), and a text of another number of lines does not assemble. The splitting of a text into the
parts of its lines is out of scope (00_scope.md R5 (2)); that a repeated label is refused is the model's choice (log
entry 13) and not stated here. -/
def Obligations.ReferenceTextAssembles : Prop :=
  Asm.assemble
    [ { label := some "period", mnemonic := "CLRP" },
      { mnemonic := "LDX" },
      { mnemonic := "LDY" },
      { label := some "loop", mnemonic := "JNE", operand := .label "dec" },
      { mnemonic := "SETP" },
      { label := some "dec", mnemonic := "DJNZ", operand := .label "loop" } ] = some Config.prog ∧
  ∀ ls : List AsmLine, ls.length ≠ 6 → Asm.assemble ls = none

/-! ### The program store and the program counter (20_memory.md, 41_reference_program.md) -/

/-- 20_memory.md R51 with 41_reference_program.md R110: the store holds the six words of PROG at reset, they are a
well-formed program, and no step of the machine, of whatever agent, changes any word of it. -/
def Obligations.ProgramStoreIsReadOnly : Prop :=
  (List.range 6).map (Memory.readWord State.reset.store) =
      [some 0x00#8, some 0x20#8, some 0x40#8, some 0x65#8, some 0x80#8, some 0xA3#8] ∧
  Memory.programWellFormed State.reset.store = true ∧
  ∀ s t : State, step s = .next t →
    t.store = s.store ∧ ∀ a, Memory.readWord t.store a = Memory.readWord s.store a

/-- 20_memory.md R52: a fetch reads the single word `PROG[PC]`; in a sound state it does not fail. (It changes no state:
it answers none.) -/
def Obligations.FetchReadsTheWordAtPc : Prop :=
  ∀ s : State, s.Sound →
    ∃ w i, Memory.readWord s.store s.pc.toNat = some w ∧ decode w = .ok i ∧ fetchInstr s = .ok i

/-- 20_memory.md R53: `next(p) = p + 1` for `0 <= p <= 4`, and `next(5) = 0`. -/
def Obligations.NextPcIsTheRingSuccessor : Prop :=
  (∀ p : PcValue, p.toNat ≤ 4 → (nextPc p).toNat = p.toNat + 1) ∧ nextPc 5#3 = 0#3

/-! ### The step (40_sequencer_instructions.md section 1) -/

/-- A step runs the decoded instruction (40_sequencer_instructions.md R91, R92): at a tick with RUN = 1, when the word at PC decodes to a well-formed
instruction and the program is well formed, the step is `exec` of that instruction, on the state with the tick consumed.
Nothing else surrounds `exec` on this hardware: the instruction itself writes PC. -/
def Obligations.StepRunsTheDecodedInstruction : Prop :=
  ∀ (s : State) (w : Byte) (i : Instr), s.nextIs .tick → s.run = true →
    Memory.readWord s.store s.pc.toNat = some w → decode w = .ok i → Memory.programWellFormed s.store = true →
    i.wellFormed = true ∧ step s = exec i s.consumed ∧ ∃ t, step s = .next t

/-- 40_sequencer_instructions.md R90: at a tick with RUN = 1 exactly one instruction step is performed, and with RUN = 0 nothing changes because of
the tick. -/
def Obligations.TickStepsExactlyWhenRunning : Prop :=
  ∀ s : State, s.Sound → s.nextIs .tick →
    (s.run = true → ∃ i, fetchInstr s = .ok i ∧ step s = exec i { s with inputs := s.inputs.tail }) ∧
    (s.run = false → step s = .next { s with inputs := s.inputs.tail })

/-- A word placed where the next step fetches is what the next step runs: for every sound state and every legal word
(the interface of the model, log entry 2; 20_memory.md R51, R52). -/
def Obligations.PlacedWordIsRunNext : Prop :=
  ∀ (s : State) (n : Nat) (i : Instr), s.Sound → n < 256 → decode (BitVec.ofNat 8 n) = .ok i →
    decodeTableWord 8 n = some i ∧
    step (s.withFetchWord 8 n) =
      exec i { s with run := true, store := Memory.writeWord s.store s.pc.toNat (BitVec.ofNat 8 n) }

/-! ### The six instructions (40_sequencer_instructions.md section 2). Each completes in the state stated, from every
state whose PC names a word; the frame is everything else. -/

/-- 40_sequencer_instructions.md R93: `CLRP` (word 0x00) completes from every PC: PIN becomes 0, PC becomes next(PC), and
X, Y, SLOT, PRE, RUN, PWMIN, PWMAX and every word of the program store are unchanged. -/
def Obligations.ClrpLowersThePin : Prop :=
  encode .clrp = 0x00#8 ∧ ∀ s : State, s.pc ≤ 5#3 → ∃ t, exec .clrp s = .next t ∧
    t.pin = false ∧ t.pc = (if s.pc = 5#3 then 0#3 else s.pc + 1#3) ∧
    t.x = s.x ∧ t.y = s.y ∧ t.slotFull = s.slotFull ∧ sequencerFrame s t

/-- 40_sequencer_instructions.md R94: `LDX` (word 0x20) completes from every PC: a pending value is taken whole and the slot is emptied; an empty slot leaves X, without a
stall; PC becomes next(PC), and VAL, Y, PIN, PRE, RUN, PWMIN, PWMAX and every word of the program store are unchanged. -/
def Obligations.LdxTakesTheSlot : Prop :=
  encode .ldx = 0x20#8 ∧ ∀ s : State, s.pc ≤ 5#3 → ∃ t, exec .ldx s = .next t ∧
    (s.slotFull = true → t.x = s.slotVal) ∧ (s.slotFull = false → t.x = s.x) ∧ t.slotFull = false ∧
    t.pc = (if s.pc = 5#3 then 0#3 else s.pc + 1#3) ∧
    t.y = s.y ∧ t.pin = s.pin ∧ sequencerFrame s t

/-- 40_sequencer_instructions.md R95: `LDY` (word 0x40) completes from every PC: Y becomes PRE, PC becomes next(PC), and
X, PIN, SLOT, PRE, RUN, PWMIN, PWMAX and every word of the program store are unchanged. -/
def Obligations.LdyLoadsThePreload : Prop :=
  encode .ldy = 0x40#8 ∧ ∀ s : State, s.pc ≤ 5#3 → ∃ t, exec .ldy s = .next t ∧
    t.y = s.pre ∧ t.pc = (if s.pc = 5#3 then 0#3 else s.pc + 1#3) ∧
    t.x = s.x ∧ t.pin = s.pin ∧ t.slotFull = s.slotFull ∧ sequencerFrame s t

/-- 40_sequencer_instructions.md R96: `JNE a` (word 0x60 + a) completes for every target 0 to 5 and from every PC: PC becomes
`a` when X != Y and next(PC) when X = Y, and everything else is unchanged. -/
def Obligations.JneJumpsWhenXDiffersFromY : Prop :=
  (∀ a : PcValue, a ≤ 5#3 → encode (.jne a) = 0x60#8 + a.setWidth 8) ∧
  ∀ (s : State) (a : PcValue), s.pc ≤ 5#3 → a ≤ 5#3 → ∃ t, exec (.jne a) s = .next t ∧
    (s.x ≠ s.y → t.pc = a) ∧ (s.x = s.y → t.pc = (if s.pc = 5#3 then 0#3 else s.pc + 1#3)) ∧
    t.x = s.x ∧ t.y = s.y ∧ t.pin = s.pin ∧ t.slotFull = s.slotFull ∧ sequencerFrame s t

/-- 40_sequencer_instructions.md R97: `SETP` (word 0x80) completes from every PC: PIN becomes 1, PC becomes next(PC), and
X, Y, SLOT, PRE, RUN, PWMIN, PWMAX and every word of the program store are unchanged. -/
def Obligations.SetpRaisesThePin : Prop :=
  encode .setp = 0x80#8 ∧ ∀ s : State, s.pc ≤ 5#3 → ∃ t, exec .setp s = .next t ∧
    t.pin = true ∧ t.pc = (if s.pc = 5#3 then 0#3 else s.pc + 1#3) ∧
    t.x = s.x ∧ t.y = s.y ∧ t.slotFull = s.slotFull ∧ sequencerFrame s t

/-- 40_sequencer_instructions.md R98: `DJNZ a` (word 0xA0 + a) completes for every target 0 to 5 and from every PC: the new Y
is `trunc_XLEN(Y - 1)`, said here on the unsigned readings; PC becomes `a` when the NEW Y is not zero and next(PC) when it
is; everything else is unchanged. -/
def Obligations.DjnzDecrementsYAndJumps : Prop :=
  (∀ a : PcValue, a ≤ 5#3 → encode (.djnz a) = 0xA0#8 + a.setWidth 8) ∧
  ∀ (s : State) (a : PcValue), s.pc ≤ 5#3 → a ≤ 5#3 → ∃ t, exec (.djnz a) s = .next t ∧
    (s.y.toNat = 0 → t.y.toNat = 2 ^ 32 - 1) ∧ (0 < s.y.toNat → t.y.toNat = s.y.toNat - 1) ∧
    (t.y ≠ 0#32 → t.pc = a) ∧ (t.y = 0#32 → t.pc = (if s.pc = 5#3 then 0#3 else s.pc + 1#3)) ∧
    t.x = s.x ∧ t.pin = s.pin ∧ t.slotFull = s.slotFull ∧ sequencerFrame s t

/-! ### Whole-machine rules (10_state.md, 60_exceptions.md) -/

/-- Every step from a sound state leads to a sound state: PC stays in 0 to 5 (10_state.md R39, a rule the spec marks as
derived), the program stays well formed (30_encoding.md R80) and its list canonical (log entry 2). -/
def Obligations.EveryStepKeepsSoundness : Prop :=
  ∀ s t : State, s.Sound → step s = .next t → t.Sound

/-- The machine after reset is sound (10_state.md R38, 41_reference_program.md R110). -/
def Obligations.ResetIsSound : Prop := State.reset.Sound

/-- From every sound state, with every later input a PSEQ operation, the machine never stops, however long it runs
(40_sequencer_instructions.md R103 and 60_exceptions.md R181, which the spec marks as derived; R165, R180). -/
def Obligations.LegalRunNeverStops : Prop :=
  ∀ (k : Nat) (s : State), s.Sound → (∀ i ∈ s.inputs, legalInput i = true) →
    ∃ t, runSteps k s = .next t ∧ t.Sound ∧ t.inputs = s.inputs.drop k

/-- 10_state.md section 10 (R40): write ownership. Whatever a step changes, it changes as the table says: by the named
instruction, by the named host write, or by reset; and reset writes everything. That reset leaves the program store, the
pending inputs and the word the host read last (readData) alone, which the last clause also says, is the model's reading
(log entry 10, DEDUCED, with entries 2, 3 and 4). -/
def Obligations.StepsWriteOnlyWhatTheyOwn : Prop :=
  ∀ s t : State, step s = .next t →
    (t.x ≠ s.x → s.nextResets = true ∨ (s.nextRuns .ldx ∧ s.slotFull = true)) ∧
    (t.y ≠ s.y → s.nextResets = true ∨ s.nextRuns .ldy ∨ ∃ a, s.nextRuns (.djnz a)) ∧
    (t.pre ≠ s.pre → s.nextResets = true ∨ (s.run = false ∧ ∃ v, s.nextIs (.write .pre v))) ∧
    (t.slotVal ≠ s.slotVal → s.nextResets = true ∨ ∃ v, s.nextIs (.write .angle v)) ∧
    (t.slotFull ≠ s.slotFull → s.nextResets = true ∨ (t.slotFull = false ∧ s.nextRuns .ldx) ∨
      (t.slotFull = true ∧ ∃ v, s.nextIs (.write .angle v))) ∧
    (t.pc ≠ s.pc → s.nextResets = true ∨ ∃ i, s.nextRuns i) ∧
    (t.pin ≠ s.pin → s.nextResets = true ∨ (t.pin = false ∧ s.nextRuns .clrp) ∨ (t.pin = true ∧ s.nextRuns .setp)) ∧
    (t.run ≠ s.run → s.nextResets = true ∨ ∃ v, s.nextIs (.write .ctrl v)) ∧
    (t.pwmin ≠ s.pwmin → s.nextResets = true ∨ ∃ v, s.nextIs (.write .pwmin v)) ∧
    (t.pwmax ≠ s.pwmax → s.nextResets = true ∨ ∃ v, s.nextIs (.write .pwmax v)) ∧
    (s.nextResets = true →
      t = { State.reset with store := s.store, inputs := s.inputs.tail, readData := s.readData })

/-- 10_state.md R36: what the host can see never depends on X, Y, PC, SLOT or PIN (nor on the program): two machines that
agree on what the host sees, and that the same inputs reach, agree on it for ever. And no host access but a reset writes
X, Y, PC or PIN. -/
def Obligations.HiddenStateStaysHidden : Prop :=
  (∀ (k : Nat) (s s' t t' : State), s.hostView = s'.hostView → s.inputs = s'.inputs →
    runSteps k s = .next t → runSteps k s' = .next t' → t.hostView = t'.hostView) ∧
  ∀ s t : State, step s = .next t → ¬ s.nextIs .tick → s.nextResets = false →
    t.x = s.x ∧ t.y = s.y ∧ t.pc = s.pc ∧ t.pin = s.pin

/-! ### Reset (10_state.md R38, 70_reset_and_hazards.md R185) -/

/-- 10_state.md section 9 (R38): the value of every piece of state after reset. -/
def Obligations.ResetValues : Prop :=
  State.reset.x = 0#32 ∧ State.reset.y = 0#32 ∧ State.reset.pre = 0#32 ∧ State.reset.slotVal = 0#32 ∧
  State.reset.slotFull = false ∧ State.reset.pc = 0#3 ∧ State.reset.pin = false ∧ State.reset.run = false ∧
  State.reset.pwmin = 0#32 ∧ State.reset.pwmax = 0#32

/-- 70_reset_and_hazards.md R185 with the values of 10_state.md R38: `rst` and a write of CTRL with bit 1 set, whatever its bit 0, have the same effect in one step: every piece of
state takes its reset value, and the program store is unaffected. -/
def Obligations.BothCausesOfResetResetEverything : Prop :=
  ∀ (s : State) (v : Word) (rest : List Input),
    s.inputs = .rst :: rest ∨ (s.inputs = .hostWrite 0 v :: rest ∧ v.getLsbD 1 = true) →
    ∃ t, step s = .next t ∧ t.x = 0#32 ∧ t.y = 0#32 ∧ t.pre = 0#32 ∧ t.slotVal = 0#32 ∧ t.slotFull = false ∧
      t.pc = 0#3 ∧ t.pin = false ∧ t.run = false ∧ t.pwmin = 0#32 ∧ t.pwmax = 0#32 ∧
      (∀ a, Memory.readWord t.store a = Memory.readWord s.store a) ∧ t.inputs = rest

/-! ### Host steps (43_host_operations.md section 1, 20_memory.md section 2) -/

/-- 43_host_operations.md R146: what each read returns; a read changes no state of PSEQ. -/
def Obligations.HostReadsReturnOnlyTheFourRegisters : Prop :=
  ∀ (s : State) (n : Nat) (rest : List Input), s.inputs = .hostRead n :: rest → n ≤ 4 →
    ∃ d : Word, step s = .next { s with readData := some d, inputs := rest } ∧
      (n = 0 → d = if s.run then 1#32 else 0#32) ∧ (n = 1 → d = s.pre) ∧ (n = 2 → d = s.pwmin) ∧
      (n = 3 → d = s.pwmax) ∧ (n = 4 → d = 0#32)

/-- 43_host_operations.md section 1 (R147): a write of the control register with bit 1 set resets every piece of state, bit 0
ignored; with bit 1 clear it sets RUN to bit 0 and changes nothing else, whatever the reserved bits hold. That the reset
leaves the program store and the word the host read last (readData) alone is the model's reading (log entry 10, DEDUCED,
with entries 2 and 4). -/
def Obligations.CtrlWriteResetsOrSetsRun : Prop :=
  ∀ (s : State) (v : Word) (rest : List Input), s.inputs = .hostWrite 0 v :: rest →
    (v.getLsbD 1 = true → step s = .next { State.reset with
      store := s.store, readData := s.readData, inputs := rest }) ∧
    (v.getLsbD 1 = false → step s = .next { s with run := v.getLsbD 0, inputs := rest })

/-- 43_host_operations.md R148: the preload is written while stopped, and a write while running is ignored. -/
def Obligations.PreWriteOnlyWhileStopped : Prop :=
  ∀ (s : State) (v : Word) (rest : List Input), s.inputs = .hostWrite 1 v :: rest →
    (s.run = false → step s = .next { s with pre := v, inputs := rest }) ∧
    (s.run = true → step s = .next { s with inputs := rest })

/-- 43_host_operations.md R149 and R150: the calibration is written at any time, and a value already in the slot or in X stays as it is. -/
def Obligations.CalibrationWritesAtAnyTime : Prop :=
  ∀ (s : State) (v : Word) (rest : List Input),
    (s.inputs = .hostWrite 2 v :: rest → step s = .next { s with pwmin := v, inputs := rest }) ∧
    (s.inputs = .hostWrite 3 v :: rest → step s = .next { s with pwmax := v, inputs := rest })

/-- 43_host_operations.md R151 with 20_memory.md R58 and 42_angle_mapper.md R131: an ANGLE write puts the mapped count in the slot, whatever
RUN and SLOT.FULL are, with the formula written out over the integers. -/
def Obligations.AngleWritePutsTheMappedCount : Prop :=
  ∀ (s : State) (v : Word) (rest : List Input), s.inputs = .hostWrite 4 v :: rest →
    step s = .next { s with
      slotVal := BitVec.ofInt 32
        ⌊((180 * (s.pwmin.toNat : ℤ) + ((s.pwmax.toNat : ℤ) - s.pwmin.toNat) * v.toInt : ℤ) : ℚ) / (180 * 2)⌋
      slotFull := true
      inputs := rest }

/-- 20_memory.md R56: an access to a register number 5 or above, or to a byte offset 0x14 or above, is refused. -/
def Obligations.MissingRegistersAreRefused : Prop :=
  (∀ (s : State) (n : Nat) (v : Word) (rest : List Input), 5 ≤ n →
    s.inputs = .hostRead n :: rest ∨ s.inputs = .hostWrite n v :: rest → step s = .refused (.noSuchRegister n)) ∧
  ∀ (s : State) (a : BusAccess) (rest : List Input), s.inputs = .bus a :: rest → Config.pseqBase + 0x14 ≤ a.addr →
    ∃ r, step s = .refused r

/-- 20_memory.md R54: register `n` is at byte address `PSEQ_BASE + 4 * n`, and a whole-word access there is the access to
register `n`. -/
def Obligations.BusAccessIsTheRegisterAccess : Prop :=
  Config.pseqBase % 4 = 0 ∧
  ∀ (s : State) (n : Nat) (v : Word) (rest : List Input), n ≤ 4 →
    (step { s with inputs := .bus { addr := Config.pseqBase + 4 * n, bytes := 4, kind := .read } :: rest } =
      step { s with inputs := .hostRead n :: rest }) ∧
    (step { s with inputs := .bus { addr := Config.pseqBase + 4 * n, bytes := 4, kind := .write v } :: rest } =
      step { s with inputs := .hostWrite n v :: rest }) ∧
    ∃ t, step { s with inputs := .hostRead n :: rest } = .next t

/-- 20_memory.md section 2 (R55): a bus access that is not one whole word, or whose byte address is not a multiple of 4, is
refused. The third clause, that an access below PSEQ_BASE is refused too, is the model's reading (log entry 7, DEDUCED); it
speaks of no access on a platform whose PSEQ_BASE, which the spec leaves open, is 0. -/
def Obligations.OtherBusAccessesAreRefused : Prop :=
  ∀ (s : State) (a : BusAccess) (rest : List Input), s.inputs = .bus a :: rest →
    a.bytes ≠ 4 ∨ a.addr % 4 ≠ 0 ∨ a.addr < Config.pseqBase → ∃ r, step s = .refused r

/-- 20_memory.md R63: writes of registers 1, 2, 3 and 4 are idempotent: the same word written twice in a row leaves what
one write leaves. -/
def Obligations.RepeatedWritesAreIdempotent : Prop :=
  ∀ (s : State) (n : Nat) (v : Word) (rest : List Input), 1 ≤ n → n ≤ 4 →
    ∃ t, step { s with inputs := .hostWrite n v :: rest } = .next t ∧
      runSteps 2 { s with inputs := .hostWrite n v :: .hostWrite n v :: rest } = .next t

/-- 20_memory.md R59: of all the angles written with no take between them only the last is ever seen. From any state `s`, after
any `j` steps among which there is no take and no reset (any number of puts, ticks that run other instructions, and other
host steps may be among them), let `t` be a state whose next step puts the angle `v`, and let that put and `k` further
steps that neither take, nor reset, nor put lead to a state `u` whose next step runs `LDX`. Then X has kept its value all
along, so no earlier put was seen; the slot holds one count; and the `LDX` takes the count of `v`, mapped by the
calibration of the moment of that last put, and leaves the slot empty, so nothing older is left behind it. -/
def Obligations.LatestPutWins : Prop :=
  ∀ (s t u : State) (j k : Nat) (v : Word),
    holdsAlong State.nextTakesNothing j s = true → runSteps j s = .next t →
    t.nextIs (.write .angle v) →
    (∀ t', step t = .next t' → holdsAlong State.nextLeavesSlot k t' = true) → runSteps (k + 1) t = .next u →
    u.nextRuns .ldx →
    t.x = s.x ∧ u.x = s.x ∧ u.slotFull = true ∧ u.slotVal = mapAngle t.pwmin t.pwmax v ∧
    ∃ w, step u = .next w ∧ w.x = mapAngle t.pwmin t.pwmax v ∧ w.slotFull = false

/-- 20_memory.md R60, R61: a put and a take that coincide take effect in one of two orders, and the model has both, whether
the slot was empty or full: put first, and the `LDX` takes the new count, an older pending one being lost; `LDX` first, and
X takes the older pending count (or keeps its value, if there was none) and the new count waits in the slot
(95_test_vectors.md W13). That an order is a list of inputs is the model's (log entry 3). -/
def Obligations.PutAndTakeInEitherOrder : Prop :=
  ∀ (s : State) (v : Word) (rest : List Input), s.run = true → fetchInstr s = .ok .ldx →
    (s.inputs = .hostWrite 4 v :: .tick :: rest → ∃ t, runSteps 2 s = .next t ∧
      t.x = mapAngle s.pwmin s.pwmax v ∧ t.slotFull = false ∧ t.slotVal = mapAngle s.pwmin s.pwmax v ∧
      t.pc = nextPc s.pc) ∧
    (s.inputs = .tick :: .hostWrite 4 v :: rest → ∃ t, runSteps 2 s = .next t ∧
      t.x = sampledX s ∧ t.slotFull = true ∧ t.slotVal = mapAngle s.pwmin s.pwmax v ∧ t.pc = nextPc s.pc)

/-! ### The mapper (42_angle_mapper.md) -/

/-- 42_angle_mapper.md R131: `Map` is the floor of the exact quotient, truncated to a word, for all integers. -/
def Obligations.MapIsTheTruncatedFloor : Prop :=
  ∀ mn mx a : ℤ,
    mapNum mn mx a = 180 * mn + (mx - mn) * a ∧
    mapT mn mx a = ⌊(mapNum mn mx a : ℚ) / (180 * 2)⌋ ∧
    mapCount mn mx a = BitVec.ofInt 32 ⌊(mapNum mn mx a : ℚ) / (180 * 2)⌋

/-- 42_angle_mapper.md R132 (marked as derived by the spec): the one exact division agrees with the source's formula in real arithmetic,
`floor(pulseWidthUs / ticksPerCount)` with `pulseWidthUs = min + (max - min) / 180 * angle`. -/
def Obligations.MapAgreesWithTheSourceFormula : Prop :=
  ∀ mn mx a : ℤ, mapT mn mx a = ⌊((mn : ℚ) + ((mx : ℚ) - mn) / 180 * a) / 2⌋

/-- 42_angle_mapper.md R136: the worked values; and with the reference calibration every integer angle gives 350 + 5 a counts
(95_test_vectors.md E4). -/
def Obligations.MapWorkedValues : Prop :=
  (mapNum 700 2500 0 = 126000 ∧ mapT 700 2500 0 = 350) ∧ (mapNum 700 2500 180 = 450000 ∧ mapT 700 2500 180 = 1250) ∧
  (mapNum 700 2500 90 = 288000 ∧ mapT 700 2500 90 = 800) ∧ ∀ a : ℤ, mapT 700 2500 a = 350 + 5 * a

/-- 42_angle_mapper.md R137 (marked as derived by the spec): the widths of the intermediate results for 32-bit operands. -/
def Obligations.MapIntermediatesFit : Prop :=
  ∀ pwmin pwmax v : Word,
    |mapNum pwmin.toNat pwmax.toNat v.toInt| < 2 ^ 64 ∧ |mapT pwmin.toNat pwmax.toNat v.toInt| < 2 ^ 56

/-- 42_angle_mapper.md R142 (marked as derived by the spec): with equal calibration values every angle gives floor(mn / 2); with
mx < mn the count falls as the angle rises; with mn = 0 and mx = 360 the count is the angle. -/
def Obligations.MapDegenerateCalibrations : Prop :=
  (∀ mn a : ℤ, mapT mn mn a = ⌊(mn : ℚ) / 2⌋) ∧
  (∀ mn mx a b : ℤ, mx < mn → a ≤ b → mapT mn mx b ≤ mapT mn mx a) ∧
  (∀ a : ℤ, mapT 0 360 a = a) ∧
  ∀ v : Word, 0 ≤ v.toInt → mapAngle 0#32 360#32 v = v

/-! ### The host's operations (43_host_operations.md section 2) -/

/-- 43_host_operations.md section 2 (R155, R160): from every state, stopped or running, the five writes of `initialize` leave
all ten pieces of PSEQ's state at the values named here, with no remnant of the earlier run. What lies outside that state
is kept, by the model's reading (log entry 10, DEDUCED): the program store as it was configured (entry 2), the inputs that
follow (entry 3) and the word the host read last (entry 4). -/
def Obligations.InitializeFromAnyState : Prop :=
  ∀ (s : State) (periodTicks mn mx : Word) (rest : List Input),
    s.inputs = Driver.initialize periodTicks mn mx ++ rest →
    runSteps 5 s = .next { x := 0, y := 0, pre := periodTicks, slotVal := 0, slotFull := false, pc := 0, pin := false,
                           run := true, pwmin := mn, pwmax := mx, store := s.store, inputs := rest,
                           readData := s.readData }

/-- 43_host_operations.md section 2 (R157): `setAngle` with an integer of the ANGLE port's range is one step that puts the count of that angle. -/
def Obligations.SetAngleIsOneStep : Prop :=
  ∀ (s : State) (d : ℤ) (rest : List Input), -2 ^ 31 ≤ d → d < 2 ^ 31 → s.inputs = Driver.setAngle d ++ rest →
    step s = .next { s with slotVal := mapCount s.pwmin.toNat s.pwmax.toNat d, slotFull := true, inputs := rest }

/-- 43_host_operations.md section 2 (R159): stop. From then on no tick changes anything, for any number of ticks, and the line stays at its level; while
stopped the host may write PRE. -/
def Obligations.StopFreezesEverything : Prop :=
  ∀ (s : State) (k : Nat) (v : Word) (rest : List Input),
    (s.inputs = Driver.stop ++ List.replicate k .tick ++ rest →
      runSteps (k + 1) s = .next { s with run := false, inputs := rest }) ∧
    (s.inputs = Driver.stop ++ List.replicate k .tick ++ .hostWrite 1 v :: rest →
      runSteps (k + 2) s = .next { s with run := false, pre := v, inputs := rest })

/-- 43_host_operations.md section 2 (R158): a machine stopped for any number of ticks and started again is the machine that was stopped, and its next tick
executes the instruction that would have executed next. -/
def Obligations.StopThenStartResumes : Prop :=
  ∀ (s : State) (k : Nat) (i : Instr) (rest : List Input), s.run = true → fetchInstr s = .ok i →
    s.inputs = Driver.stop ++ List.replicate k .tick ++ Driver.start ++ .tick :: rest →
    runSteps (k + 2) s = .next { s with inputs := .tick :: rest } ∧
    runSteps (k + 3) s = exec i { s with inputs := rest }

/-! ### The waveform of the fixed program (41_reference_program.md; 00_scope.md R4 (c) counts it as hardware)

The spec marks R114 to R122 and R124 as derived from the instruction rules. A period begins in a state with PC = 0, the store
as configured, RUN = 1 and only ticks ahead. -/

/-- 41_reference_program.md section 2 (R115): one loop iteration takes two ticks, three where X = Y, and leaves the loop exactly when the new Y is 0. -/
def Obligations.LoopIterationTakesTwoOrThreeTicks : Prop :=
  ∀ s : State, s.run = true → s.pc = 3#3 → s.inputs = [] → s.store = [] →
    (s.x ≠ s.y → runSteps 2 s = .next { s with
      y := s.y - 1#32, pc := if s.y = 1#32 then 0#3 else 3#3 }) ∧
    (s.x = s.y → runSteps 3 s = .next { s with
      y := s.y - 1#32, pin := true, pc := if s.y = 1#32 then 0#3 else 3#3 })

/-- 41_reference_program.md section 2 (R116): when a period has a match, and in which iteration. -/
def Obligations.MatchConditions : Prop :=
  (∀ p x : Word, 1 ≤ p.toNat →
    (hasMatch p x = true ↔ 1 ≤ x.toNat ∧ x.toNat ≤ p.toNat) ∧
    (hasMatch p x = true → matchIteration p x = p.toNat - x.toNat)) ∧
  ∀ x : Word, hasMatch 0#32 x = true

/-- 41_reference_program.md section 3 (R117 to R120, R122): the pin trace of a whole period, for every preload and every X. With a match the line
is low for `4 + 2 * kstar` ticks and then high for `2 * (N - kstar)` ticks; without one it is low for the whole period. -/
def Obligations.PeriodWaveform : Prop :=
  ∀ s : State, s.run = true → s.pc = 0#3 → s.inputs = [] → s.store = [] →
    (hasMatch s.pre (sampledX s) = true →
      pinTrace (periodLength s.pre (sampledX s)) s =
        List.replicate (4 + 2 * matchIteration s.pre (sampledX s)) false ++
        List.replicate (2 * (periodIterations s.pre - matchIteration s.pre (sampledX s))) true) ∧
    (hasMatch s.pre (sampledX s) = false →
      pinTrace (periodLength s.pre (sampledX s)) s = List.replicate (periodLength s.pre (sampledX s)) false)

/-- 41_reference_program.md section 3 (R119, R121): with `1 <= X <= P` a period of `2 * P + 4` ticks carries one pulse of exactly `2 * X` ticks at its end. -/
def Obligations.PulseIsTwiceXTicks : Prop :=
  ∀ s : State, s.run = true → s.pc = 0#3 → s.inputs = [] → s.store = [] →
    1 ≤ (sampledX s).toNat → (sampledX s).toNat ≤ s.pre.toNat →
    pinTrace (2 * s.pre.toNat + 4) s =
      List.replicate (4 + 2 * (s.pre.toNat - (sampledX s).toNat)) false ++
      List.replicate (2 * (sampledX s).toNat) true

/-- 41_reference_program.md sections 2 and 3 (R114, R118): after `L` ticks, and not before, the machine is at PC = 0 again, with Y = 0, the slot empty, X the value
sampled, and everything else as it was but for the line, which is high exactly when the period had a match. -/
def Obligations.PeriodEndsAfterItsLength : Prop :=
  ∀ s : State, s.run = true → s.pc = 0#3 → s.inputs = [] → s.store = [] →
    runSteps (periodLength s.pre (sampledX s)) s =
      .next { s with x := sampledX s, y := 0, slotFull := false, pin := hasMatch s.pre (sampledX s) } ∧
    ∀ k, 0 < k → k < periodLength s.pre (sampledX s) → ∃ t, runSteps k s = .next t ∧ t.pc ≠ 0#3

/-- 41_reference_program.md section 5 (R127) with 43_host_operations.md section 2: from every state, `initialize` and then
`setAngle` of an angle whose count fits the period give, from the very next tick on, a period with one pulse of twice that
count of ticks at its end. -/
def Obligations.InitializeThenSetAngleGivesThePulse : Prop :=
  ∀ (s : State) (periodTicks mn mx : Word) (d : ℤ), s.store = [] → -2 ^ 31 ≤ d → d < 2 ^ 31 →
    s.inputs = Driver.initialize periodTicks mn mx ++ Driver.setAngle d →
    1 ≤ (mapCount mn.toNat mx.toNat d).toNat → (mapCount mn.toNat mx.toNat d).toNat ≤ periodTicks.toNat →
    pinTrace (6 + (2 * periodTicks.toNat + 4)) s =
      List.replicate (4 + 2 * (periodTicks.toNat - (mapCount mn.toNat mx.toNat d).toNat)) false ++
      List.replicate (2 * (mapCount mn.toNat mx.toNat d).toNat) true

/-- 41_reference_program.md section 5 (R126, marked as derived by the spec): the reference numbers. With the reference preload the periods of the counts 350,
800 and 1250 are 20 000 ticks, a period without a pulse is 19 999, and the preload follows from the period. -/
def Obligations.ReferencePeriods : Prop :=
  periodLength Config.preRef 350#32 = 20000 ∧ periodLength Config.preRef 800#32 = 20000 ∧
  periodLength Config.preRef 1250#32 = 20000 ∧ periodLength Config.preRef 0#32 = 19999 ∧
  Driver.preloadFor 20000 = Config.preRef ∧
  ∀ (p x : Word), 1 ≤ p.toNat → hasMatch p x = true → Driver.preloadFor (periodLength p x) = p

/-- 41_reference_program.md section 4 (R124): an angle written after the `LDX` of a period, and before the next period begins, leaves the waveform of the
period as it would have been without it. -/
def Obligations.LateAngleWaitsForTheNextPeriod : Prop :=
  ∀ (s : State) (j : Nat) (v : Word), s.run = true → s.pc = 0#3 → s.inputs = [] → s.store = [] →
    2 ≤ j → j ≤ periodLength s.pre (sampledX s) →
    pinTrace (periodLength s.pre (sampledX s) + 1) { s with inputs := List.replicate j .tick ++ [.hostWrite 4 v] } =
      pinTrace (periodLength s.pre (sampledX s)) s

/-! ### The encoder outside the sixteen instructions -/

/-- The model's choice (log entry 12, DESIGN CHOICE): 30_encoding.md R76 defines `encode` of a branch for targets 0 to 5 only;
this encoder lays out the fields of format J for every value of the target, so the ill-formed branches to 6 and 7 encode to
0x66, 0x67, 0xA6 and 0xA7. Those words are reserved (R77, R78): the decoder names the target and answers no instruction. -/
def Obligations.IllFormedBranchesEncodeToReservedWords : Prop :=
  (∀ a : PcValue, encode (.jne a) = 0x60#8 + a.setWidth 8 ∧ encode (.djnz a) = 0xA0#8 + a.setWidth 8) ∧
  ∀ a : PcValue, 5#3 < a →
    (Instr.jne a).wellFormed = false ∧ (Instr.djnz a).wellFormed = false ∧
    decode (encode (.jne a)) = .error (.target a) ∧ decode (encode (.djnz a)) = .error (.target a)
end

