-- ==== Sys2Proof/Laws/Mapper.lean ====
section
/-! SUPPORT. Laws/Mapper.lean: the mapper's arithmetic, in the forms that later proofs compute with. -/

namespace Sys2Proof.Machine

theorem mapNum_eq (mn mx a : Int) : mapNum mn mx a = 180 * mn + (mx - mn) * a := rfl

/-- The divisor is the positive constant 360, for which the floor division is Euclidean division (42_angle_mapper.md
R131: "there is no division by zero"). -/
theorem mapT_eq_ediv (mn mx a : Int) : mapT mn mx a = mapNum mn mx a / 360 := by
  show (mapNum mn mx a).fdiv 360 = _
  exact Int.fdiv_eq_ediv_of_nonneg _ (by decide)

end Sys2Proof.Machine
end

