-- ==== Sys2Proof/Laws/Memory.lean ====
section
/-! SUPPORT. Laws/Memory.lean: the laws of the program store's list: every operation keeps its canonical form, a word
written is read back, and every other word is left alone. -/

namespace Sys2Proof.Machine

theorem Memory.wf_nil : Memory.wf [] := by simp [Memory.wf]

/-- The tail of a canonical list is canonical, and its indices lie above the head's. -/
theorem Memory.wf_cons {c : Host.Cell} {m : Memory} :
    Memory.wf (c :: m) ↔
      (∀ d ∈ m, c.1 < d.1) ∧ (c.1 < Config.nprog ∧ Config.unlisted c.1 ≠ some c.2) ∧ Memory.wf m := by
  simp only [Memory.wf, List.map_cons, List.pairwise_cons, List.mem_map, List.mem_cons, forall_exists_index, and_imp,
    forall_apply_eq_imp_iff₂, forall_eq_or_imp]
  tauto

theorem Memory.mem_of_mem_removeEntry {a : Nat} {m : Memory} {d : Host.Cell} (h : d ∈ Memory.removeEntry a m) :
    d ∈ m := by
  induction m with
  | nil => exact h
  | cons c rest ih =>
    unfold Memory.removeEntry at h
    split at h
    · exact List.mem_cons_of_mem _ h
    · rcases List.mem_cons.1 h with rfl | h
      · exact List.mem_cons_self
      · exact List.mem_cons_of_mem _ (ih h)

theorem Memory.mem_of_mem_setEntry {a : Nat} {b : Byte} {m : Memory} {d : Host.Cell}
    (h : d ∈ Memory.setEntry a b m) : d = (a, b) ∨ d ∈ m := by
  induction m with
  | nil => simpa [Memory.setEntry] using h
  | cons c rest ih =>
    unfold Memory.setEntry at h
    split at h
    · simpa using h
    · split at h
      · rcases List.mem_cons.1 h with h | h
        · exact .inl h
        · exact .inr (List.mem_cons_of_mem _ h)
      · rcases List.mem_cons.1 h with rfl | h
        · exact .inr List.mem_cons_self
        · exact (ih h).imp_right (List.mem_cons_of_mem _)

theorem Memory.wf_removeEntry {a : Nat} {m : Memory} (h : Memory.wf m) : Memory.wf (Memory.removeEntry a m) := by
  induction m with
  | nil => exact h
  | cons c rest ih =>
    obtain ⟨above, head, tail⟩ := Memory.wf_cons.1 h
    unfold Memory.removeEntry
    split
    · exact tail
    · exact Memory.wf_cons.2 ⟨fun d hd => above d (Memory.mem_of_mem_removeEntry hd), head, ih tail⟩

theorem Memory.wf_setEntry {a : Nat} {b : Byte} {m : Memory} (h : Memory.wf m) (ha : a < Config.nprog)
    (hb : Config.unlisted a ≠ some b) : Memory.wf (Memory.setEntry a b m) := by
  induction m with
  | nil => exact Memory.wf_cons.2 ⟨by simp, ⟨ha, hb⟩, h⟩
  | cons c rest ih =>
    obtain ⟨above, head, tail⟩ := Memory.wf_cons.1 h
    unfold Memory.setEntry
    split
    next lt =>
      refine Memory.wf_cons.2 ⟨fun d hd => ?_, ⟨ha, hb⟩, h⟩
      rcases List.mem_cons.1 hd with rfl | hd
      · exact lt
      · exact lt.trans (above d hd)
    next nlt =>
      split
      next eq => exact Memory.wf_cons.2 ⟨fun d hd => eq ▸ above d hd, ⟨ha, hb⟩, tail⟩
      next ne =>
        refine Memory.wf_cons.2 ⟨fun d hd => ?_, head, ih tail⟩
        rcases Memory.mem_of_mem_setEntry hd with rfl | hd
        · exact lt_of_le_of_ne (not_lt.1 nlt) (Ne.symm ne)
        · exact above d hd

/-- Writing a word keeps the canonical form. -/
theorem Memory.wf_writeWord {m : Memory} (a : Nat) (b : Byte) (h : Memory.wf m) :
    Memory.wf (Memory.writeWord m a b) := by
  unfold Memory.writeWord
  split
  · split
    · exact Memory.wf_removeEntry h
    next ha hb => exact Memory.wf_setEntry h ha hb
  · exact h

theorem Memory.wf_writeWords (ws : List Byte) {m : Memory} (a : Nat) (h : Memory.wf m) :
    Memory.wf (Memory.writeWords m a ws) := by
  induction ws generalizing m a with
  | nil => exact h
  | cons b rest ih => exact ih (a + 1) (Memory.wf_writeWord a b h)

/-- A program placed word by word is in canonical form. -/
theorem Memory.wf_ofWords (ws : List Byte) : Memory.wf (Memory.ofWords ws) :=
  Memory.wf_writeWords ws 0 Memory.wf_nil

/-! ### Reading after writing -/

theorem Memory.entry_eq_none {a : Nat} {m : Memory} (h : ∀ d ∈ m, a < d.1) : Memory.entry a m = none := by
  induction m with
  | nil => rfl
  | cons c rest ih =>
    have hc := h c List.mem_cons_self
    have hne : c.1 ≠ a := fun e => absurd hc (e ▸ lt_irrefl _)
    simpa [Memory.entry, hne] using ih fun d hd => h d (List.mem_cons_of_mem _ hd)

theorem Memory.entry_removeEntry_self {a : Nat} {m : Memory} (h : Memory.wf m) :
    Memory.entry a (Memory.removeEntry a m) = none := by
  induction m with
  | nil => rfl
  | cons c rest ih =>
    obtain ⟨above, -, tail⟩ := Memory.wf_cons.1 h
    unfold Memory.removeEntry
    split
    next e => exact Memory.entry_eq_none (e ▸ above)
    next ne => simpa [Memory.entry, ne] using ih tail

theorem Memory.entry_removeEntry_of_ne {a a' : Nat} {m : Memory} (hne : a' ≠ a) :
    Memory.entry a' (Memory.removeEntry a m) = Memory.entry a' m := by
  induction m with
  | nil => rfl
  | cons c rest ih =>
    unfold Memory.removeEntry
    split
    next e => rw [Memory.entry, if_neg (fun h => hne (h.symm.trans e))]
    next => simp [Memory.entry, ih]

theorem Memory.entry_setEntry_self (a : Nat) (b : Byte) (m : Memory) :
    Memory.entry a (Memory.setEntry a b m) = some b := by
  induction m with
  | nil => simp [Memory.setEntry, Memory.entry]
  | cons c rest ih =>
    unfold Memory.setEntry
    split
    · simp [Memory.entry]
    · split
      · simp [Memory.entry]
      next ne => rw [Memory.entry, if_neg (Ne.symm ne), ih]

theorem Memory.entry_setEntry_of_ne {a a' : Nat} {b : Byte} {m : Memory} (hne : a' ≠ a) :
    Memory.entry a' (Memory.setEntry a b m) = Memory.entry a' m := by
  induction m with
  | nil => simp [Memory.setEntry, Memory.entry, Ne.symm hne]
  | cons c rest ih =>
    unfold Memory.setEntry
    split
    · simp [Memory.entry, Ne.symm hne]
    · split
      next e => simp [Memory.entry, ← e, Ne.symm hne]
      next => simp [Memory.entry, ih]

/-- A word written at an index of the store is read back. -/
theorem Memory.readWord_writeWord_self {m : Memory} (h : Memory.wf m) {a : Nat} (ha : a < Config.nprog) (b : Byte) :
    Memory.readWord (Memory.writeWord m a b) a = some b := by
  by_cases hu : Config.unlisted a = some b
  · simp [Memory.readWord, Memory.writeWord, ha, hu, Memory.entry_removeEntry_self h]
  · simp [Memory.readWord, Memory.writeWord, ha, hu, Memory.entry_setEntry_self]

/-- Every other word is left alone. -/
theorem Memory.readWord_writeWord_of_ne (m : Memory) {a a' : Nat} (hne : a' ≠ a) (b : Byte) :
    Memory.readWord (Memory.writeWord m a b) a' = Memory.readWord m a' := by
  unfold Memory.writeWord
  split
  · split
    · simp only [Memory.readWord, Memory.entry_removeEntry_of_ne hne]
    · simp only [Memory.readWord, Memory.entry_setEntry_of_ne hne]
  · rfl

/-- Words placed from index `a` on leave the indices below `a` alone. -/
theorem Memory.readWord_writeWords_below (ws : List Byte) (m : Memory) {a a' : Nat} (h : a' < a) :
    Memory.readWord (Memory.writeWords m a ws) a' = Memory.readWord m a' := by
  induction ws generalizing m a with
  | nil => rfl
  | cons b rest ih =>
    rw [Memory.writeWords, ih _ (Nat.lt_succ_of_lt h), Memory.readWord_writeWord_of_ne m (Nat.ne_of_lt h)]

/-- Words placed from index `a` on are read back in their order. -/
theorem Memory.readWord_writeWords (ws : List Byte) {m : Memory} (h : Memory.wf m) {a k : Nat} (hk : k < ws.length)
    (hn : a + k < Config.nprog) : Memory.readWord (Memory.writeWords m a ws) (a + k) = some ws[k] := by
  induction ws generalizing m a k with
  | nil => exact absurd hk (Nat.not_lt_zero k)
  | cons b rest ih =>
    cases k with
    | zero =>
      simp only [Memory.writeWords, Nat.add_zero, List.getElem_cons_zero]
      rw [Memory.readWord_writeWords_below _ _ (Nat.lt_succ_self a)]
      exact Memory.readWord_writeWord_self h hn b
    | succ k =>
      have e : a + (k + 1) = a + 1 + k := by omega
      simp only [Memory.writeWords, e, List.getElem_cons_succ]
      exact ih (Memory.wf_writeWord a b h) (Nat.lt_of_succ_lt_succ hk) (e ▸ hn)

/-- With nothing listed the store holds PROG (20_memory.md R51). -/
theorem Memory.readWord_nil {a : Nat} (ha : a < Config.nprog) : Memory.readWord [] a = Config.prog[a]? := by
  simp [Memory.readWord, ha, Memory.entry, Config.unlisted]

/-- Each of the six words of a well-formed program decodes (30_encoding.md R80). -/
theorem Memory.programWellFormed_iff (m : Memory) :
    Memory.programWellFormed m = true ↔
      ∀ a < Config.nprog, ∃ w, Memory.readWord m a = some w ∧ isLegalWord w = true := by
  simp only [Memory.programWellFormed, List.all_eq_true, List.mem_range]
  refine forall₂_congr fun a _ => ?_
  cases Memory.readWord m a <;> simp

end Sys2Proof.Machine
end

