-- ==== Sys2Proof/Laws/State.lean ====
section
/-! SUPPORT. Laws/State.lean: what each update of the state does to each field, one lemma per field, so that no later
proof unfolds a record update. -/

namespace Sys2Proof.Machine

/-! ### `pc <- t` -/

@[simp] theorem State.goto_x (s : State) (t : PcValue) : (s.goto t).x = s.x := rfl
@[simp] theorem State.goto_y (s : State) (t : PcValue) : (s.goto t).y = s.y := rfl
@[simp] theorem State.goto_pre (s : State) (t : PcValue) : (s.goto t).pre = s.pre := rfl
@[simp] theorem State.goto_slotVal (s : State) (t : PcValue) : (s.goto t).slotVal = s.slotVal := rfl
@[simp] theorem State.goto_slotFull (s : State) (t : PcValue) : (s.goto t).slotFull = s.slotFull := rfl
@[simp] theorem State.goto_pc (s : State) (t : PcValue) : (s.goto t).pc = t := rfl
@[simp] theorem State.goto_pin (s : State) (t : PcValue) : (s.goto t).pin = s.pin := rfl
@[simp] theorem State.goto_run (s : State) (t : PcValue) : (s.goto t).run = s.run := rfl
@[simp] theorem State.goto_pwmin (s : State) (t : PcValue) : (s.goto t).pwmin = s.pwmin := rfl
@[simp] theorem State.goto_pwmax (s : State) (t : PcValue) : (s.goto t).pwmax = s.pwmax := rfl
@[simp] theorem State.goto_store (s : State) (t : PcValue) : (s.goto t).store = s.store := rfl
@[simp] theorem State.goto_inputs (s : State) (t : PcValue) : (s.goto t).inputs = s.inputs := rfl
@[simp] theorem State.goto_readData (s : State) (t : PcValue) : (s.goto t).readData = s.readData := rfl

/-! ### `pc <- next(p)` (20_memory.md R53) -/

@[simp] theorem State.advance_x (s : State) : (s.advance).x = s.x := rfl
@[simp] theorem State.advance_y (s : State) : (s.advance).y = s.y := rfl
@[simp] theorem State.advance_pre (s : State) : (s.advance).pre = s.pre := rfl
@[simp] theorem State.advance_slotVal (s : State) : (s.advance).slotVal = s.slotVal := rfl
@[simp] theorem State.advance_slotFull (s : State) : (s.advance).slotFull = s.slotFull := rfl
@[simp] theorem State.advance_pc (s : State) : (s.advance).pc = nextPc s.pc := rfl
@[simp] theorem State.advance_pin (s : State) : (s.advance).pin = s.pin := rfl
@[simp] theorem State.advance_run (s : State) : (s.advance).run = s.run := rfl
@[simp] theorem State.advance_pwmin (s : State) : (s.advance).pwmin = s.pwmin := rfl
@[simp] theorem State.advance_pwmax (s : State) : (s.advance).pwmax = s.pwmax := rfl
@[simp] theorem State.advance_store (s : State) : (s.advance).store = s.store := rfl
@[simp] theorem State.advance_inputs (s : State) : (s.advance).inputs = s.inputs := rfl
@[simp] theorem State.advance_readData (s : State) : (s.advance).readData = s.readData := rfl

/-! ### `X <- v` -/

@[simp] theorem State.setX_x (s : State) (v : Word) : (s.setX v).x = v := rfl
@[simp] theorem State.setX_y (s : State) (v : Word) : (s.setX v).y = s.y := rfl
@[simp] theorem State.setX_pre (s : State) (v : Word) : (s.setX v).pre = s.pre := rfl
@[simp] theorem State.setX_slotVal (s : State) (v : Word) : (s.setX v).slotVal = s.slotVal := rfl
@[simp] theorem State.setX_slotFull (s : State) (v : Word) : (s.setX v).slotFull = s.slotFull := rfl
@[simp] theorem State.setX_pc (s : State) (v : Word) : (s.setX v).pc = s.pc := rfl
@[simp] theorem State.setX_pin (s : State) (v : Word) : (s.setX v).pin = s.pin := rfl
@[simp] theorem State.setX_run (s : State) (v : Word) : (s.setX v).run = s.run := rfl
@[simp] theorem State.setX_pwmin (s : State) (v : Word) : (s.setX v).pwmin = s.pwmin := rfl
@[simp] theorem State.setX_pwmax (s : State) (v : Word) : (s.setX v).pwmax = s.pwmax := rfl
@[simp] theorem State.setX_store (s : State) (v : Word) : (s.setX v).store = s.store := rfl
@[simp] theorem State.setX_inputs (s : State) (v : Word) : (s.setX v).inputs = s.inputs := rfl
@[simp] theorem State.setX_readData (s : State) (v : Word) : (s.setX v).readData = s.readData := rfl

/-! ### `Y <- v` -/

@[simp] theorem State.setY_x (s : State) (v : Word) : (s.setY v).x = s.x := rfl
@[simp] theorem State.setY_y (s : State) (v : Word) : (s.setY v).y = v := rfl
@[simp] theorem State.setY_pre (s : State) (v : Word) : (s.setY v).pre = s.pre := rfl
@[simp] theorem State.setY_slotVal (s : State) (v : Word) : (s.setY v).slotVal = s.slotVal := rfl
@[simp] theorem State.setY_slotFull (s : State) (v : Word) : (s.setY v).slotFull = s.slotFull := rfl
@[simp] theorem State.setY_pc (s : State) (v : Word) : (s.setY v).pc = s.pc := rfl
@[simp] theorem State.setY_pin (s : State) (v : Word) : (s.setY v).pin = s.pin := rfl
@[simp] theorem State.setY_run (s : State) (v : Word) : (s.setY v).run = s.run := rfl
@[simp] theorem State.setY_pwmin (s : State) (v : Word) : (s.setY v).pwmin = s.pwmin := rfl
@[simp] theorem State.setY_pwmax (s : State) (v : Word) : (s.setY v).pwmax = s.pwmax := rfl
@[simp] theorem State.setY_store (s : State) (v : Word) : (s.setY v).store = s.store := rfl
@[simp] theorem State.setY_inputs (s : State) (v : Word) : (s.setY v).inputs = s.inputs := rfl
@[simp] theorem State.setY_readData (s : State) (v : Word) : (s.setY v).readData = s.readData := rfl

/-! ### `PIN <- b` -/

@[simp] theorem State.setPin_x (s : State) (b : Bool) : (s.setPin b).x = s.x := rfl
@[simp] theorem State.setPin_y (s : State) (b : Bool) : (s.setPin b).y = s.y := rfl
@[simp] theorem State.setPin_pre (s : State) (b : Bool) : (s.setPin b).pre = s.pre := rfl
@[simp] theorem State.setPin_slotVal (s : State) (b : Bool) : (s.setPin b).slotVal = s.slotVal := rfl
@[simp] theorem State.setPin_slotFull (s : State) (b : Bool) : (s.setPin b).slotFull = s.slotFull := rfl
@[simp] theorem State.setPin_pc (s : State) (b : Bool) : (s.setPin b).pc = s.pc := rfl
@[simp] theorem State.setPin_pin (s : State) (b : Bool) : (s.setPin b).pin = b := rfl
@[simp] theorem State.setPin_run (s : State) (b : Bool) : (s.setPin b).run = s.run := rfl
@[simp] theorem State.setPin_pwmin (s : State) (b : Bool) : (s.setPin b).pwmin = s.pwmin := rfl
@[simp] theorem State.setPin_pwmax (s : State) (b : Bool) : (s.setPin b).pwmax = s.pwmax := rfl
@[simp] theorem State.setPin_store (s : State) (b : Bool) : (s.setPin b).store = s.store := rfl
@[simp] theorem State.setPin_inputs (s : State) (b : Bool) : (s.setPin b).inputs = s.inputs := rfl
@[simp] theorem State.setPin_readData (s : State) (b : Bool) : (s.setPin b).readData = s.readData := rfl

/-! ### the state `SlotTake()` leaves (R57) -/

@[simp] theorem State.slotEmptied_x (s : State) : (s.slotEmptied).x = s.x := rfl
@[simp] theorem State.slotEmptied_y (s : State) : (s.slotEmptied).y = s.y := rfl
@[simp] theorem State.slotEmptied_pre (s : State) : (s.slotEmptied).pre = s.pre := rfl
@[simp] theorem State.slotEmptied_slotVal (s : State) : (s.slotEmptied).slotVal = s.slotVal := rfl
@[simp] theorem State.slotEmptied_slotFull (s : State) : (s.slotEmptied).slotFull = false := rfl
@[simp] theorem State.slotEmptied_pc (s : State) : (s.slotEmptied).pc = s.pc := rfl
@[simp] theorem State.slotEmptied_pin (s : State) : (s.slotEmptied).pin = s.pin := rfl
@[simp] theorem State.slotEmptied_run (s : State) : (s.slotEmptied).run = s.run := rfl
@[simp] theorem State.slotEmptied_pwmin (s : State) : (s.slotEmptied).pwmin = s.pwmin := rfl
@[simp] theorem State.slotEmptied_pwmax (s : State) : (s.slotEmptied).pwmax = s.pwmax := rfl
@[simp] theorem State.slotEmptied_store (s : State) : (s.slotEmptied).store = s.store := rfl
@[simp] theorem State.slotEmptied_inputs (s : State) : (s.slotEmptied).inputs = s.inputs := rfl
@[simp] theorem State.slotEmptied_readData (s : State) : (s.slotEmptied).readData = s.readData := rfl

/-! ### `SlotPut(v)` (R58) -/

@[simp] theorem State.slotPut_x (s : State) (v : Word) : (s.slotPut v).x = s.x := rfl
@[simp] theorem State.slotPut_y (s : State) (v : Word) : (s.slotPut v).y = s.y := rfl
@[simp] theorem State.slotPut_pre (s : State) (v : Word) : (s.slotPut v).pre = s.pre := rfl
@[simp] theorem State.slotPut_slotVal (s : State) (v : Word) : (s.slotPut v).slotVal = v := rfl
@[simp] theorem State.slotPut_slotFull (s : State) (v : Word) : (s.slotPut v).slotFull = true := rfl
@[simp] theorem State.slotPut_pc (s : State) (v : Word) : (s.slotPut v).pc = s.pc := rfl
@[simp] theorem State.slotPut_pin (s : State) (v : Word) : (s.slotPut v).pin = s.pin := rfl
@[simp] theorem State.slotPut_run (s : State) (v : Word) : (s.slotPut v).run = s.run := rfl
@[simp] theorem State.slotPut_pwmin (s : State) (v : Word) : (s.slotPut v).pwmin = s.pwmin := rfl
@[simp] theorem State.slotPut_pwmax (s : State) (v : Word) : (s.slotPut v).pwmax = s.pwmax := rfl
@[simp] theorem State.slotPut_store (s : State) (v : Word) : (s.slotPut v).store = s.store := rfl
@[simp] theorem State.slotPut_inputs (s : State) (v : Word) : (s.slotPut v).inputs = s.inputs := rfl
@[simp] theorem State.slotPut_readData (s : State) (v : Word) : (s.slotPut v).readData = s.readData := rfl

/-! ### reset (10_state.md R38) -/

@[simp] theorem State.resetPseq_x (s : State) : (s.resetPseq).x = 0 := rfl
@[simp] theorem State.resetPseq_y (s : State) : (s.resetPseq).y = 0 := rfl
@[simp] theorem State.resetPseq_pre (s : State) : (s.resetPseq).pre = 0 := rfl
@[simp] theorem State.resetPseq_slotVal (s : State) : (s.resetPseq).slotVal = 0 := rfl
@[simp] theorem State.resetPseq_slotFull (s : State) : (s.resetPseq).slotFull = false := rfl
@[simp] theorem State.resetPseq_pc (s : State) : (s.resetPseq).pc = 0 := rfl
@[simp] theorem State.resetPseq_pin (s : State) : (s.resetPseq).pin = false := rfl
@[simp] theorem State.resetPseq_run (s : State) : (s.resetPseq).run = false := rfl
@[simp] theorem State.resetPseq_pwmin (s : State) : (s.resetPseq).pwmin = 0 := rfl
@[simp] theorem State.resetPseq_pwmax (s : State) : (s.resetPseq).pwmax = 0 := rfl
@[simp] theorem State.resetPseq_store (s : State) : (s.resetPseq).store = s.store := rfl
@[simp] theorem State.resetPseq_inputs (s : State) : (s.resetPseq).inputs = s.inputs := rfl
@[simp] theorem State.resetPseq_readData (s : State) : (s.resetPseq).readData = s.readData := rfl

/-! ### taking the next input -/

@[simp] theorem State.consumed_x (s : State) : (s.consumed).x = s.x := rfl
@[simp] theorem State.consumed_y (s : State) : (s.consumed).y = s.y := rfl
@[simp] theorem State.consumed_pre (s : State) : (s.consumed).pre = s.pre := rfl
@[simp] theorem State.consumed_slotVal (s : State) : (s.consumed).slotVal = s.slotVal := rfl
@[simp] theorem State.consumed_slotFull (s : State) : (s.consumed).slotFull = s.slotFull := rfl
@[simp] theorem State.consumed_pc (s : State) : (s.consumed).pc = s.pc := rfl
@[simp] theorem State.consumed_pin (s : State) : (s.consumed).pin = s.pin := rfl
@[simp] theorem State.consumed_run (s : State) : (s.consumed).run = s.run := rfl
@[simp] theorem State.consumed_pwmin (s : State) : (s.consumed).pwmin = s.pwmin := rfl
@[simp] theorem State.consumed_pwmax (s : State) : (s.consumed).pwmax = s.pwmax := rfl
@[simp] theorem State.consumed_store (s : State) : (s.consumed).store = s.store := rfl
@[simp] theorem State.consumed_inputs (s : State) : (s.consumed).inputs = s.inputs.tail := rfl
@[simp] theorem State.consumed_readData (s : State) : (s.consumed).readData = s.readData := rfl

/-! ### `HostRead(n)` (43_host_operations.md R146) -/

@[simp] theorem hostReads_x (r : HostReg) (s : State) : (hostReads r s).x = s.x := rfl
@[simp] theorem hostReads_y (r : HostReg) (s : State) : (hostReads r s).y = s.y := rfl
@[simp] theorem hostReads_pre (r : HostReg) (s : State) : (hostReads r s).pre = s.pre := rfl
@[simp] theorem hostReads_slotVal (r : HostReg) (s : State) : (hostReads r s).slotVal = s.slotVal := rfl
@[simp] theorem hostReads_slotFull (r : HostReg) (s : State) : (hostReads r s).slotFull = s.slotFull := rfl
@[simp] theorem hostReads_pc (r : HostReg) (s : State) : (hostReads r s).pc = s.pc := rfl
@[simp] theorem hostReads_pin (r : HostReg) (s : State) : (hostReads r s).pin = s.pin := rfl
@[simp] theorem hostReads_run (r : HostReg) (s : State) : (hostReads r s).run = s.run := rfl
@[simp] theorem hostReads_pwmin (r : HostReg) (s : State) : (hostReads r s).pwmin = s.pwmin := rfl
@[simp] theorem hostReads_pwmax (r : HostReg) (s : State) : (hostReads r s).pwmax = s.pwmax := rfl
@[simp] theorem hostReads_store (r : HostReg) (s : State) : (hostReads r s).store = s.store := rfl
@[simp] theorem hostReads_inputs (r : HostReg) (s : State) : (hostReads r s).inputs = s.inputs := rfl
@[simp] theorem hostReads_readData (r : HostReg) (s : State) : (hostReads r s).readData = some (regRead r s) := rfl

/-! ### a write to PWMIN (R149) -/

@[simp] theorem writePwmin_x (v : Word) (s : State) : (writePwmin v s).x = s.x := rfl
@[simp] theorem writePwmin_y (v : Word) (s : State) : (writePwmin v s).y = s.y := rfl
@[simp] theorem writePwmin_pre (v : Word) (s : State) : (writePwmin v s).pre = s.pre := rfl
@[simp] theorem writePwmin_slotVal (v : Word) (s : State) : (writePwmin v s).slotVal = s.slotVal := rfl
@[simp] theorem writePwmin_slotFull (v : Word) (s : State) : (writePwmin v s).slotFull = s.slotFull := rfl
@[simp] theorem writePwmin_pc (v : Word) (s : State) : (writePwmin v s).pc = s.pc := rfl
@[simp] theorem writePwmin_pin (v : Word) (s : State) : (writePwmin v s).pin = s.pin := rfl
@[simp] theorem writePwmin_run (v : Word) (s : State) : (writePwmin v s).run = s.run := rfl
@[simp] theorem writePwmin_pwmin (v : Word) (s : State) : (writePwmin v s).pwmin = v := rfl
@[simp] theorem writePwmin_pwmax (v : Word) (s : State) : (writePwmin v s).pwmax = s.pwmax := rfl
@[simp] theorem writePwmin_store (v : Word) (s : State) : (writePwmin v s).store = s.store := rfl
@[simp] theorem writePwmin_inputs (v : Word) (s : State) : (writePwmin v s).inputs = s.inputs := rfl
@[simp] theorem writePwmin_readData (v : Word) (s : State) : (writePwmin v s).readData = s.readData := rfl

/-! ### a write to PWMAX (R150) -/

@[simp] theorem writePwmax_x (v : Word) (s : State) : (writePwmax v s).x = s.x := rfl
@[simp] theorem writePwmax_y (v : Word) (s : State) : (writePwmax v s).y = s.y := rfl
@[simp] theorem writePwmax_pre (v : Word) (s : State) : (writePwmax v s).pre = s.pre := rfl
@[simp] theorem writePwmax_slotVal (v : Word) (s : State) : (writePwmax v s).slotVal = s.slotVal := rfl
@[simp] theorem writePwmax_slotFull (v : Word) (s : State) : (writePwmax v s).slotFull = s.slotFull := rfl
@[simp] theorem writePwmax_pc (v : Word) (s : State) : (writePwmax v s).pc = s.pc := rfl
@[simp] theorem writePwmax_pin (v : Word) (s : State) : (writePwmax v s).pin = s.pin := rfl
@[simp] theorem writePwmax_run (v : Word) (s : State) : (writePwmax v s).run = s.run := rfl
@[simp] theorem writePwmax_pwmin (v : Word) (s : State) : (writePwmax v s).pwmin = s.pwmin := rfl
@[simp] theorem writePwmax_pwmax (v : Word) (s : State) : (writePwmax v s).pwmax = v := rfl
@[simp] theorem writePwmax_store (v : Word) (s : State) : (writePwmax v s).store = s.store := rfl
@[simp] theorem writePwmax_inputs (v : Word) (s : State) : (writePwmax v s).inputs = s.inputs := rfl
@[simp] theorem writePwmax_readData (v : Word) (s : State) : (writePwmax v s).readData = s.readData := rfl

/-! ### a write to ANGLE (R151) -/

@[simp] theorem writeAngle_x (v : Word) (s : State) : (writeAngle v s).x = s.x := rfl
@[simp] theorem writeAngle_y (v : Word) (s : State) : (writeAngle v s).y = s.y := rfl
@[simp] theorem writeAngle_pre (v : Word) (s : State) : (writeAngle v s).pre = s.pre := rfl
@[simp] theorem writeAngle_slotVal (v : Word) (s : State) : (writeAngle v s).slotVal = mapAngle s.pwmin s.pwmax v := rfl
@[simp] theorem writeAngle_slotFull (v : Word) (s : State) : (writeAngle v s).slotFull = true := rfl
@[simp] theorem writeAngle_pc (v : Word) (s : State) : (writeAngle v s).pc = s.pc := rfl
@[simp] theorem writeAngle_pin (v : Word) (s : State) : (writeAngle v s).pin = s.pin := rfl
@[simp] theorem writeAngle_run (v : Word) (s : State) : (writeAngle v s).run = s.run := rfl
@[simp] theorem writeAngle_pwmin (v : Word) (s : State) : (writeAngle v s).pwmin = s.pwmin := rfl
@[simp] theorem writeAngle_pwmax (v : Word) (s : State) : (writeAngle v s).pwmax = s.pwmax := rfl
@[simp] theorem writeAngle_store (v : Word) (s : State) : (writeAngle v s).store = s.store := rfl
@[simp] theorem writeAngle_inputs (v : Word) (s : State) : (writeAngle v s).inputs = s.inputs := rfl
@[simp] theorem writeAngle_readData (v : Word) (s : State) : (writeAngle v s).readData = s.readData := rfl

/-! ### A branch: `pc <- t` or `pc <- next(p)` (40_sequencer_instructions.md R96, R98) -/

@[simp] theorem State.branch_pc (s : State) (c : Bool) (t : PcValue) :
    (s.branch c t).pc = if c then t else nextPc s.pc := by cases c <;> rfl
@[simp] theorem State.branch_x (s : State) (c : Bool) (t : PcValue) : (s.branch c t).x = s.x := by cases c <;> rfl
@[simp] theorem State.branch_y (s : State) (c : Bool) (t : PcValue) : (s.branch c t).y = s.y := by cases c <;> rfl
@[simp] theorem State.branch_pre (s : State) (c : Bool) (t : PcValue) : (s.branch c t).pre = s.pre := by cases c <;> rfl
@[simp] theorem State.branch_slotVal (s : State) (c : Bool) (t : PcValue) : (s.branch c t).slotVal = s.slotVal := by cases c <;> rfl
@[simp] theorem State.branch_slotFull (s : State) (c : Bool) (t : PcValue) : (s.branch c t).slotFull = s.slotFull := by cases c <;> rfl
@[simp] theorem State.branch_pin (s : State) (c : Bool) (t : PcValue) : (s.branch c t).pin = s.pin := by cases c <;> rfl
@[simp] theorem State.branch_run (s : State) (c : Bool) (t : PcValue) : (s.branch c t).run = s.run := by cases c <;> rfl
@[simp] theorem State.branch_pwmin (s : State) (c : Bool) (t : PcValue) : (s.branch c t).pwmin = s.pwmin := by cases c <;> rfl
@[simp] theorem State.branch_pwmax (s : State) (c : Bool) (t : PcValue) : (s.branch c t).pwmax = s.pwmax := by cases c <;> rfl
@[simp] theorem State.branch_store (s : State) (c : Bool) (t : PcValue) : (s.branch c t).store = s.store := by cases c <;> rfl
@[simp] theorem State.branch_inputs (s : State) (c : Bool) (t : PcValue) : (s.branch c t).inputs = s.inputs := by cases c <;> rfl
@[simp] theorem State.branch_readData (s : State) (c : Bool) (t : PcValue) : (s.branch c t).readData = s.readData := by cases c <;> rfl

/-! ### A write to PRE, ignored while RUN = 1 (43_host_operations.md R148) -/

@[simp] theorem writePre_pre (v : Word) (s : State) : (writePre v s).pre = bif s.run then s.pre else v := by
  unfold writePre; cases s.run <;> rfl
@[simp] theorem writePre_x (v : Word) (s : State) : (writePre v s).x = s.x := by unfold writePre; split <;> rfl
@[simp] theorem writePre_y (v : Word) (s : State) : (writePre v s).y = s.y := by unfold writePre; split <;> rfl
@[simp] theorem writePre_slotVal (v : Word) (s : State) : (writePre v s).slotVal = s.slotVal := by unfold writePre; split <;> rfl
@[simp] theorem writePre_slotFull (v : Word) (s : State) : (writePre v s).slotFull = s.slotFull := by unfold writePre; split <;> rfl
@[simp] theorem writePre_pc (v : Word) (s : State) : (writePre v s).pc = s.pc := by unfold writePre; split <;> rfl
@[simp] theorem writePre_pin (v : Word) (s : State) : (writePre v s).pin = s.pin := by unfold writePre; split <;> rfl
@[simp] theorem writePre_run (v : Word) (s : State) : (writePre v s).run = s.run := by unfold writePre; split <;> rfl
@[simp] theorem writePre_pwmin (v : Word) (s : State) : (writePre v s).pwmin = s.pwmin := by unfold writePre; split <;> rfl
@[simp] theorem writePre_pwmax (v : Word) (s : State) : (writePre v s).pwmax = s.pwmax := by unfold writePre; split <;> rfl
@[simp] theorem writePre_store (v : Word) (s : State) : (writePre v s).store = s.store := by unfold writePre; split <;> rfl
@[simp] theorem writePre_inputs (v : Word) (s : State) : (writePre v s).inputs = s.inputs := by unfold writePre; split <;> rfl
@[simp] theorem writePre_readData (v : Word) (s : State) : (writePre v s).readData = s.readData := by unfold writePre; split <;> rfl

/-! ### A write to CTRL is one of two updates (43_host_operations.md R147) -/

theorem writeCtrl_rst (v : Word) (s : State) (h : ctrlRstBit v = true) : writeCtrl v s = s.resetPseq := by
  simp [writeCtrl, h]

theorem writeCtrl_run (v : Word) (s : State) (h : ctrlRstBit v = false) :
    writeCtrl v s = { s with run := ctrlRunBit v } := by
  simp [writeCtrl, h]

@[simp] theorem writeCtrl_store (v : Word) (s : State) : (writeCtrl v s).store = s.store := by unfold writeCtrl; split <;> rfl
@[simp] theorem regWrite_store (r : HostReg) (v : Word) (s : State) : (regWrite r v s).store = s.store := by
  cases r <;> simp [regWrite]
@[simp] theorem writeCtrl_inputs (v : Word) (s : State) : (writeCtrl v s).inputs = s.inputs := by unfold writeCtrl; split <;> rfl
@[simp] theorem regWrite_inputs (r : HostReg) (v : Word) (s : State) : (regWrite r v s).inputs = s.inputs := by
  cases r <;> simp [regWrite]
@[simp] theorem writeCtrl_readData (v : Word) (s : State) : (writeCtrl v s).readData = s.readData := by unfold writeCtrl; split <;> rfl
@[simp] theorem regWrite_readData (r : HostReg) (v : Word) (s : State) : (regWrite r v s).readData = s.readData := by
  cases r <;> simp [regWrite]

end Sys2Proof.Machine
end

