-- ==== Sys2Proof/Laws/Ops.lean ====
section
/-! SUPPORT. Laws/Ops.lean: for each shared operation, once, everything it can do. Later proofs cite these lemmas and
do not unfold the operation. -/

namespace Sys2Proof.Machine

/-! ### The program counter -/

/-- On the indices of the program store `next` is the successor in the ring of six (20_memory.md R53). -/
theorem nextPc_of_le {p : PcValue} (h : p ≤ 5#3) : nextPc p = if p = 5#3 then 0#3 else p + 1#3 := by
  unfold nextPc
  split
  next h4 => rw [if_neg]; rintro rfl; exact absurd h4 (by decide)
  next h4 =>
    have : p = 5#3 := by bv_omega
    simp [this]

/-- `next` maps the indices of the store into themselves (10_state.md R39). -/
theorem namesWord_nextPc {p : PcValue} (h : namesWord p = true) : namesWord (nextPc p) = true := by
  have h' : p ≤ 5#3 := by simpa [namesWord] using h
  rw [nextPc_of_le h']
  revert p
  decide

@[simp] theorem branchTarget_eq (a : PcValue) : branchTarget a = a := by simp [branchTarget]

theorem namesWord_eq_targetLegal (a : PcValue) : namesWord a = targetLegal a := rfl

/-! ### The slot -/

/-- What the `LDX` of a state leaves in X is the value sampled (20_memory.md R57). -/
theorem sampledX_eq (s : State) : sampledX s = s.slotTaken.getD s.x := by
  unfold sampledX State.slotTaken
  split <;> rfl

/-! ### Fetch and decode -/

/-- A word is one of the sixteen exactly when it decodes (30_encoding.md R77). -/
theorem isLegalWord_iff (w : Byte) : isLegalWord w = true ↔ ∃ i, decode w = .ok i := by
  unfold isLegalWord
  cases h : decode w <;> simp

/-- A fetch that answers an instruction found a legal word at PC, in a well-formed program. -/
theorem fetchInstr_ok {s : State} {i : Instr} (h : fetchInstr s = .ok i) :
    ∃ w, Memory.readWord s.store s.pc.toNat = some w ∧ decode w = .ok i ∧
      Memory.programWellFormed s.store = true := by
  unfold fetchInstr at h
  split at h
  · cases h
  next w hw =>
    split at h
    · cases h
    next j hj =>
      split at h
      next hp =>
        cases h
        exact ⟨w, hw, hj, hp⟩
      · cases h

/-- The converse: a legal word at PC, in a well-formed program, is fetched. -/
theorem fetchInstr_of_word {s : State} {w : Byte} {i : Instr} (hw : Memory.readWord s.store s.pc.toNat = some w)
    (hi : decode w = .ok i) (hp : Memory.programWellFormed s.store = true) : fetchInstr s = .ok i := by
  simp [fetchInstr, hw, hi, hp]

/-- In a sound state the fetch answers an instruction (40_sequencer_instructions.md R103). -/
theorem fetchInstr_of_sound {s : State} (h : s.Sound) : ∃ i, fetchInstr s = .ok i := by
  obtain ⟨hpc, hp, -⟩ := h
  have hlt : s.pc.toNat < Config.nprog := by
    have hle : s.pc ≤ 5#3 := by simpa [namesWord] using hpc
    show s.pc.toNat < 6
    bv_omega
  obtain ⟨w, hw, hl⟩ := (Memory.programWellFormed_iff s.store).1 hp _ hlt
  obtain ⟨i, hi⟩ := (isLegalWord_iff w).1 hl
  exact ⟨i, fetchInstr_of_word hw hi hp⟩

/-- A fetch reads the program store and PC and nothing else (20_memory.md R52). -/
theorem fetchInstr_congr {s t : State} (hs : s.store = t.store) (hp : s.pc = t.pc) : fetchInstr s = fetchInstr t := by
  simp [fetchInstr, hs, hp]

@[simp] theorem fetchInstr_consumed (s : State) : fetchInstr s.consumed = fetchInstr s := rfl

/-! ### The instructions: every one completes, in the state named here (40_sequencer_instructions.md R103) -/

/-- The state an instruction leads to. -/
def execState (i : Instr) (s : State) : State :=
  match i with
  | .clrp => (s.setPin false).advance
  | .ldx => { s with x := sampledX s, slotFull := false, pc := nextPc s.pc }
  | .ldy => (s.setY s.pre).advance
  | .jne a => s.branch (jneTaken s.x s.y) a
  | .setp => (s.setPin true).advance
  | .djnz a => (s.setY (decremented s.y)).branch (djnzTaken (decremented s.y)) a

theorem exec_eq (i : Instr) (s : State) : exec i s = .next (execState i s) := by
  cases i with
  | clrp => rfl
  | ldx =>
    cases hf : s.slotFull <;>
      simp [exec, execLdx, State.slotTaken, hf, execState, sampledX, State.advance, State.goto, State.setX,
        State.slotEmptied]
  | ldy => rfl
  | jne a => simp [exec, execJne, execState]
  | setp => rfl
  | djnz a => simp [exec, execDjnz, execState]

/-- What no instruction writes (10_state.md R40). -/
theorem exec_sequencerFrame {i : Instr} {s t : State} (h : exec i s = .next t) : sequencerFrame s t := by
  rw [exec_eq] at h
  cases h
  cases i <;> simp [sequencerFrame, execState]

/-! ### A tick, an event, a step -/

/-- Everything a tick can do when it answers a next state. -/
theorem tick_next {s t : State} (h : tick s = .next t) :
    (s.run = false ∧ t = s) ∨ (s.run = true ∧ ∃ i, fetchInstr s = .ok i ∧ t = execState i s) := by
  unfold tick at h
  split at h
  next hr =>
    split at h
    next i hi =>
      rw [exec_eq] at h
      cases h
      exact .inr ⟨hr, i, hi, rfl⟩
    · cases h
  next hr =>
    cases h
    exact .inl ⟨by simpa using hr, rfl⟩

theorem tick_stopped {s : State} (h : s.run = false) : tick s = .next s := by simp [tick, h]

theorem tick_running {s : State} {i : Instr} (h : s.run = true) (hi : fetchInstr s = .ok i) :
    tick s = .next (execState i s) := by simp [tick, h, hi, exec_eq]

/-- A step that answers a next state performed the event its input is. -/
theorem step_next {s t : State} (h : step s = .next t) :
    ∃ e, s.nextIs e ∧ perform e s.consumed = .next t := by
  unfold step performInput at h
  split at h
  next e he => exact ⟨e, he, h⟩
  · cases h

theorem step_of_event {s : State} {e : Event} (h : s.nextIs e) : step s = perform e s.consumed := by
  unfold step performInput
  rw [h]

/-- Everything a step can do when it answers a next state: a tick while stopped, an instruction, a reset, a read or a
write (60_exceptions.md R169). -/
theorem step_cases {s t : State} (h : step s = .next t) :
    (s.nextIs .tick ∧ s.run = false ∧ t = s.consumed) ∨
    (∃ i, s.nextRuns i ∧ t = execState i s.consumed) ∨
    (s.nextIs .reset ∧ t = s.consumed.resetPseq) ∨
    (∃ r, s.nextIs (.read r) ∧ t = hostReads r s.consumed) ∨
    (∃ r v, s.nextIs (.write r v) ∧ t = regWrite r v s.consumed) := by
  obtain ⟨e, he, hp⟩ := step_next h
  cases e with
  | tick =>
    rcases tick_next hp with ⟨hr, rfl⟩ | ⟨hr, i, hi, rfl⟩
    · exact .inl ⟨he, hr, rfl⟩
    · exact .inr (.inl ⟨i, ⟨he, hr, hi⟩, rfl⟩)
  | reset => cases hp; exact .inr (.inr (.inl ⟨he, rfl⟩))
  | read r => cases hp; exact .inr (.inr (.inr (.inl ⟨r, he, rfl⟩)))
  | write r v => cases hp; exact .inr (.inr (.inr (.inr ⟨r, v, he, rfl⟩)))

/-- Every step takes one input, whatever it does (20_memory.md R60). -/
theorem step_inputs {s t : State} (h : step s = .next t) : t.inputs = s.inputs.tail := by
  rcases step_cases h with ⟨-, -, rfl⟩ | ⟨i, -, rfl⟩ | ⟨-, rfl⟩ | ⟨r, -, rfl⟩ | ⟨r, v, -, rfl⟩
  · simp
  · obtain ⟨-, -, -, -, -, hin, -⟩ := exec_sequencerFrame (exec_eq i s.consumed)
    exact hin
  all_goals simp

/-! ### The slot along a run -/

/-- A step that neither takes nor resets leaves X (10_state.md R21). -/
theorem step_x_of_takesNothing {s t : State} (h : step s = .next t) (hs : s.nextTakesNothing = true) : t.x = s.x := by
  simp only [State.nextTakesNothing, Bool.and_eq_true, decide_eq_true_eq, Bool.not_eq_true'] at hs
  obtain ⟨hl, hr⟩ := hs
  rcases step_cases h with ⟨-, -, rfl⟩ | ⟨i, hi, rfl⟩ | ⟨he, rfl⟩ | ⟨r, -, rfl⟩ | ⟨r, v, he, rfl⟩
  · rfl
  · cases i <;> first | exact absurd hi hl | simp [execState]
  · rw [State.nextResets, he] at hr
    cases hr
  · rfl
  · cases r <;> simp only [regWrite, writePre_x, writePwmin_x, writePwmax_x, writeAngle_x, State.consumed_x]
    rw [State.nextResets, he] at hr
    rw [writeCtrl_run _ _ (by simpa [eventResets] using hr)]
    rfl

/-- A step that leaves the slot alone changes neither its word nor its flag (10_state.md R25, R26). -/
theorem step_slot_of_leavesSlot {s t : State} (h : step s = .next t) (hs : s.nextLeavesSlot = true) :
    t.slotVal = s.slotVal ∧ t.slotFull = s.slotFull := by
  simp only [State.nextLeavesSlot, State.nextTakesNothing, Bool.and_eq_true, decide_eq_true_eq,
    Bool.not_eq_true'] at hs
  obtain ⟨⟨hl, hr⟩, hp⟩ := hs
  rcases step_cases h with ⟨-, -, rfl⟩ | ⟨i, hi, rfl⟩ | ⟨he, rfl⟩ | ⟨r, -, rfl⟩ | ⟨r, v, he, rfl⟩
  · exact ⟨rfl, rfl⟩
  · cases i <;> first | exact absurd hi hl | simp [execState]
  · rw [State.nextResets, he] at hr
    cases hr
  · exact ⟨rfl, rfl⟩
  · cases r with
    | ctrl =>
      rw [State.nextResets, he] at hr
      rw [regWrite, writeCtrl_run _ _ (by simpa [eventResets] using hr)]
      exact ⟨rfl, rfl⟩
    | angle =>
      rw [State.nextPutsNothing, he] at hp
      cases hp
    | _ => simp [regWrite]

/-! ### Host accesses -/

/-- A register number names a register exactly when it is in 0 to 4 (10_state.md R33, 20_memory.md R56). -/
theorem regOfNumber_isSome (n : Nat) : (regOfNumber n).isSome = true ↔ n ≤ 4 := by
  unfold regOfNumber
  split <;> simp_all
  omega

/-- A bus access that names a register is one whole aligned word at one of the five (20_memory.md R54, R55). -/
theorem busRegister_ok {a : BusAccess} {r : HostReg} (h : busRegister a = .ok r) :
    a.bytes = 4 ∧ a.addr % 4 = 0 ∧ Config.pseqBase ≤ a.addr ∧
      regOfNumber ((a.addr - Config.pseqBase) / 4) = some r := by
  unfold busRegister at h
  split at h
  · cases h
  next hb =>
    split at h
    · cases h
    next ha =>
      split at h
      · cases h
      next hl =>
        split at h
        next r' hr =>
          cases h
          exact ⟨not_not.1 hb, not_not.1 ha, not_lt.1 hl, hr⟩
        · cases h

/-- A write to a register that exists is performed at once (43_host_operations.md R145). -/
theorem step_hostWrite {s : State} {n : Nat} {v : Word} {rest : List Input} {r : HostReg}
    (h : s.inputs = .hostWrite n v :: rest) (hr : regOfNumber n = some r) :
    step s = .next (regWrite r v { s with inputs := rest }) := by
  have e : s.nextIs (.write r v) := by simp [State.nextIs, nextInput, h, eventOf, hr]
  rw [step_of_event e, perform, State.consumed, h]
  rfl

/-- A read of a register that exists is performed at once (43_host_operations.md R145). -/
theorem step_hostRead {s : State} {n : Nat} {rest : List Input} {r : HostReg}
    (h : s.inputs = .hostRead n :: rest) (hr : regOfNumber n = some r) :
    step s = .next (hostReads r { s with inputs := rest }) := by
  have e : s.nextIs (.read r) := by simp [State.nextIs, nextInput, h, eventOf, hr]
  rw [step_of_event e, perform, State.consumed, h]
  rfl

/-! ### Placing a word -/

/-- Placing a legal word keeps a well-formed program well formed (30_encoding.md R80). -/
theorem Memory.programWellFormed_writeWord {m : Memory} {a : Nat} {w : Byte} (hm : Memory.wf m)
    (hp : Memory.programWellFormed m = true) (hw : isLegalWord w = true) :
    Memory.programWellFormed (Memory.writeWord m a w) = true := by
  rw [Memory.programWellFormed_iff] at *
  intro b hb
  by_cases e : b = a
  · exact ⟨w, e ▸ Memory.readWord_writeWord_self hm (e ▸ hb) w, hw⟩
  · rw [Memory.readWord_writeWord_of_ne _ e]
    exact hp b hb

/-! ### Runs -/

theorem runSteps_succ {k : Nat} {s t : State} (h : step s = .next t) : runSteps (k + 1) s = runSteps k t := by
  simp [runSteps, h]

theorem runSteps_add {j k : Nat} {s t : State} (h : runSteps j s = .next t) : runSteps (j + k) s = runSteps k t := by
  induction j generalizing s with
  | zero => cases h; simp
  | succ j ih =>
    rw [Nat.succ_add, runSteps]
    rw [runSteps] at h
    cases hs : step s with
    | next u => rw [hs] at h; exact ih h
    | fault r => cases r
    | refused r => rw [hs] at h; cases h

/-- The trace of a run is the trace of its first part, then that of the rest (60_exceptions.md R182). -/
theorem pinTrace_add {j k : Nat} {s t : State} (h : runSteps j s = .next t) :
    pinTrace (j + k) s = pinTrace j s ++ pinTrace k t := by
  induction j generalizing s with
  | zero => cases h; simp [pinTrace]
  | succ j ih =>
    rw [runSteps] at h
    cases hs : step s with
    | fault r => cases r
    | refused r => rw [hs] at h; cases h
    | next u =>
      rw [hs] at h
      rw [Nat.succ_add, pinTrace, pinTrace, hs]
      simp only [ih h]
      split <;> simp

/-- The host's own notion of a run is this one. -/
theorem runSteps_eq_core_run (k : Nat) (s : State) : runSteps k s = Host.Core.run Sys2Proof.core k s := by
  induction k generalizing s with
  | zero => rfl
  | succ k ih =>
    cases h : step s with
    | next t =>
      have h' : Sys2Proof.core.step s = .next t := h
      have e : Host.Core.run Sys2Proof.core (k + 1) s = Host.Core.run Sys2Proof.core k t := by
        simp only [Host.Core.run, h']
      rw [runSteps_succ h, e, ih]
    | fault r => cases r
    | refused r =>
      have h' : Sys2Proof.core.step s = .refused r := h
      have e : Host.Core.run Sys2Proof.core (k + 1) s = .refused r := by
        simp only [Host.Core.run, h']
      rw [e]
      simp only [runSteps, h]
      rfl

end Sys2Proof.Machine
end

