-- ==== Sys2Proof/Laws/PerInstr.lean ====
section
/-! SUPPORT. Laws/PerInstr.lean: statements made of each instruction as syntax.

EncodedFields: the word of an instruction has the fields of 30_encoding.md R71 to R73: the opcode of its row in bits
7:5, zero in bits 4:3, and its target, or 000, in bits 2:0. For the targets 6 and 7, which the spec gives no word, this
is the model's choice (log entry 12). -/

namespace Sys2Proof.Laws

/-- The opcode column of the map of 30_encoding.md R74. -/
def opcodeOf : Instr → BitVec 3
  | .clrp => 0b000
  | .ldx => 0b001
  | .ldy => 0b010
  | .jne _ => 0b011
  | .setp => 0b100
  | .djnz _ => 0b101

/-- Field `a` of the word: the target of format J, 000 of format N (30_encoding.md R72, R73). -/
def operandOf : Instr → BitVec 3
  | .clrp => 0
  | .ldx => 0
  | .ldy => 0
  | .jne a => a
  | .setp => 0
  | .djnz a => a

def EncodedFields.Statement (i : Instr) : Prop :=
  opField (encode i) = opcodeOf i ∧ zField (encode i) = 0#2 ∧ aField (encode i) = operandOf i

theorem EncodedFields.clrp : EncodedFields.Statement .clrp := by unfold EncodedFields.Statement; decide

theorem EncodedFields.ldx : EncodedFields.Statement .ldx := by unfold EncodedFields.Statement; decide

theorem EncodedFields.ldy : EncodedFields.Statement .ldy := by unfold EncodedFields.Statement; decide

theorem EncodedFields.jne (a : PcValue) : EncodedFields.Statement (.jne a) := by
  unfold EncodedFields.Statement; revert a; decide

theorem EncodedFields.setp : EncodedFields.Statement .setp := by unfold EncodedFields.Statement; decide

theorem EncodedFields.djnz (a : PcValue) : EncodedFields.Statement (.djnz a) := by
  unfold EncodedFields.Statement; revert a; decide

end Sys2Proof.Laws
end

