-- ==== Sys2Proof/Tests/Slice0.lean ====
section
/-! SUPPORT. Tests/Slice0.lean: the model's own tests, each with the vector of 95_test_vectors.md it comes from, and for
every obligation with hypotheses a state and operands that meet them (`witness_…`). -/

namespace Sys2Proof.Tests

open Sys2Proof.Machine

/-! ### Helpers -/

/-- The state a step leads to, if it leads to one. -/
def after : Host.Outcome State Fault Refusal → Option State
  | .next t => some t
  | .fault _ => none
  | .refused _ => none

/-- Why a step was refused, if it was. -/
def refusalOf : Host.Outcome State Fault Refusal → Option Refusal
  | .next _ => none
  | .fault _ => none
  | .refused r => some r

/-- A running machine at a PC, everything else as after reset. -/
def runningAt (pc : PcValue) : State := { State.reset with run := true, pc := pc }

/-- A machine as after reset that these inputs reach. -/
def reached (l : List Input) : State := { State.reset with inputs := l }

/-! ### Well-formedness (30_encoding.md R78) -/

theorem test_wellFormed_jne_refuses_6 : (Instr.jne 6).wellFormed = false := by decide
theorem test_wellFormed_djnz_refuses_7 : (Instr.djnz 7).wellFormed = false := by decide
theorem test_wellFormed_target_5 : (Instr.jne 5).wellFormed = true ∧ (Instr.djnz 0).wellFormed = true := by decide

/-! ### Decoding: words written out from 30_encoding.md R74, and 95_test_vectors.md 2.1 -/

theorem test_decode_clrp : decode 0b00000000#8 = .ok .clrp := by decide
theorem test_decode_ldx : decode 0b00100000#8 = .ok .ldx := by decide
theorem test_decode_ldy : decode 0b01000000#8 = .ok .ldy := by decide
theorem test_decode_jne : decode 0b01100101#8 = .ok (.jne 5) := by decide
theorem test_decode_setp : decode 0b10000000#8 = .ok .setp := by decide
theorem test_decode_djnz : decode 0b10100011#8 = .ok (.djnz 3) := by decide
theorem test_decode_opcode_110 : decode 0xC0#8 = .error (.opcode 6) := by decide
theorem test_decode_z : decode 0xB3#8 = .error (.zField 2) := by decide
theorem test_decode_operand : decode 0x25#8 = .error (.operand 5) := by decide
theorem test_decode_target : decode 0xA6#8 = .error (.target 6) ∧ decode 0x67#8 = .error (.target 7) := by decide
theorem test_decodeTableWord : decodeTableWord 8 0x62 = some (.jne 2) ∧ decodeTableWord 8 0xFF = none := by decide

/-! ### Single instructions (95_test_vectors.md 2.2; the vector is named in the theorem) -/

theorem test_I1_clrp_falling :
    (after (exec .clrp { runningAt 0 with pin := true })).map (fun t => (t.pc, t.pin)) = some (1, false) := by decide
theorem test_I3_clrp_wraps :
    (after (exec .clrp { runningAt 5 with pin := true })).map (fun t => (t.pc, t.pin)) = some (0, false) := by decide
theorem test_I4_ldx_takes :
    (after (exec .ldx { runningAt 1 with x := 350, slotVal := 800, slotFull := true })).map
      (fun t => (t.pc, t.x, t.slotVal, t.slotFull)) = some (2, 800, 800, false) := by decide
theorem test_I5_ldx_empty :
    (after (exec .ldx { runningAt 1 with x := 350, slotVal := 800 })).map
      (fun t => (t.pc, t.x, t.slotVal, t.slotFull)) = some (2, 350, 800, false) := by decide
theorem test_I7_ldy :
    (after (exec .ldy { runningAt 2 with pre := 9998 })).map (fun t => (t.pc, t.y, t.pre)) =
      some (3, 9998, 9998) := by decide
theorem test_I8_ldy_zero :
    (after (exec .ldy { runningAt 2 with y := 7 })).map (fun t => (t.pc, t.y)) = some (3, 0) := by decide
theorem test_I11_jne_taken :
    (after (exec (.jne 5) { runningAt 3 with x := 0x80000000, y := 0x7FFFFFFF })).map (·.pc) = some 5 := by decide
theorem test_I10_jne_not_taken :
    (after (exec (.jne 5) { runningAt 3 with x := 350, y := 350 })).map (·.pc) = some 4 := by decide
theorem test_I14_setp_rising :
    (after (exec .setp (runningAt 4))).map (fun t => (t.pc, t.pin)) = some (5, true) := by decide
theorem test_I18_djnz_falls_through_and_wraps :
    (after (exec (.djnz 3) { runningAt 5 with y := 1 })).map (fun t => (t.pc, t.y)) = some (0, 0) := by decide
theorem test_I19_djnz_wraps_zero :
    (after (exec (.djnz 3) (runningAt 5))).map (fun t => (t.pc, t.y)) = some (3, 0xFFFFFFFF) := by decide
theorem test_I21_stopped_tick :
    after (step { State.reset with x := 7, pin := true }) = some { State.reset with x := 7, pin := true } := by decide

/-! ### The step, from reset with a word placed -/

theorem test_placed_setp :
    (after (step (State.reset.withFetchWord 8 0x80))).map (fun t => (t.pc, t.pin)) = some (1, true) := by decide
theorem test_placed_djnz :
    (after (step (State.reset.withFetchWord 8 0xA3))).map (fun t => (t.pc, t.y)) = some (3, 0xFFFFFFFF) := by decide
theorem test_placed_reserved :
    refusalOf (step (State.reset.withFetchWord 8 0xC0)) = some (.reservedWord 0xC0) := by decide
theorem test_ill_formed_elsewhere :
    refusalOf (step { runningAt 0 with store := [(5, 0xA6)] }) = some .illFormedProgram := by decide
theorem test_pc_outside : refusalOf (step (runningAt 6)) = some (.noProgramWord 6) := by decide

/-! ### Host accesses (95_test_vectors.md 2.6) -/

theorem test_H3_pre_ignored_while_running :
    (after (step { reached [.hostWrite 1 5000] with run := true, pre := 9998 })).map (·.pre) = some 9998 := by decide
theorem test_H6_reserved_bits_ignored :
    (after (step (reached [.hostWrite 0 0xFFFFFFFD]))).map (·.run) = some true := by decide
theorem test_H7_rst_wins :
    after (step { reached [.hostWrite 0 3] with run := true, pre := 7, pwmin := 700 }) = some State.reset := by decide
theorem test_H9_angle_put :
    (after (step { reached [.hostWrite 4 90] with pwmin := 700, pwmax := 2500 })).map
      (fun t => (t.slotVal, t.slotFull, t.x)) = some (800, true, 0) := by decide
theorem test_read_run : (after (step { reached [.hostRead 0] with run := true })).map (·.readData) = some (some 1) := by decide
theorem test_register_5_refused : refusalOf (step (reached [.hostRead 5])) = some (.noSuchRegister 5) := by decide
theorem test_byte_access_refused :
    refusalOf (step (reached [.bus { addr := 0, bytes := 1, kind := .read }])) = some (.notWholeWord 1) := by decide
theorem test_misaligned_refused :
    refusalOf (step (reached [.bus { addr := 2, bytes := 4, kind := .read }])) = some (.misaligned 2) := by decide

/-! ### The mapper (95_test_vectors.md 2.5) -/

theorem test_M11_negative : mapAngle 700 2500 0xFFFFFFB9 = 0xFFFFFFFB := by decide
theorem test_M13_floor : mapAngle 500 2400 1 = 255 := by decide
theorem test_M27_wide : mapAngle 0 0xFFFFFFFF 0x7FFFFFFF = 0x59F49F49 := by decide
theorem test_M28_widest : mapAngle 0xFFFFFFFF 0 0x80000000 = 0xDAAAAAAA := by decide

/-! ### The assembler (30_encoding.md R81) -/

theorem test_asm_target_out_of_range :
    Asm.line [] { mnemonic := "JNE", operand := .index 6 } = none := by decide
theorem test_asm_missing_operand : Asm.line [] { mnemonic := "DJNZ" } = none := by decide

/-! ### Witnesses: every obligation with hypotheses has a state and operands that meet them -/

theorem witness_EncoderTableAndRoundTrips :
    (0#3 : PcValue) ≤ 5#3 ∧ (5#3 : PcValue) ≤ 5#3 ∧ (Instr.jne 5).wellFormed = true ∧
      (Instr.djnz 0).wellFormed = true ∧ decode 0xA5#8 = .ok (.djnz 5) := by decide

theorem witness_ReservedWordsAreRefused :
    let s := { runningAt 0 with store := [(5, 0xA6)] }
    s.nextIs .tick ∧ s.run = true ∧ Memory.readWord s.store 5 = some 0xA6 ∧ isLegalWord 0xA6 = false := by decide

theorem witness_PlacedProgramIsFetchedBack :
    let p : List Instr := [.setp, .ldy, .djnz 2, .clrp, .jne 0, .djnz 5]
    let s := { runningAt 5 with store := Memory.ofWords (p.map encode) }
    p.length = 6 ∧ (∀ i ∈ p, i.wellFormed = true) ∧ 5 < p.length ∧ s.store = Memory.ofWords (p.map encode) ∧
      s.pc.toNat = 5 := by decide

theorem witness_ReferenceTextAssembles : ([] : List AsmLine).length ≠ 6 := by decide

theorem witness_ProgramStoreIsReadOnly : step State.reset = .next State.reset := rfl

theorem witness_FetchReadsTheWordAtPc : (runningAt 0).Sound ∧ (runningAt 5).Sound := by decide

theorem witness_NextPcIsTheRingSuccessor : (0#3).toNat ≤ 4 ∧ (4#3).toNat ≤ 4 := by decide

theorem witness_StepRunsTheDecodedInstruction :
    let s := runningAt 5
    s.nextIs .tick ∧ s.run = true ∧ Memory.readWord s.store s.pc.toNat = some 0xA3 ∧
      decode 0xA3#8 = .ok (.djnz 3) ∧ Memory.programWellFormed s.store = true := by decide

theorem witness_TickStepsExactlyWhenRunning :
    (runningAt 3).Sound ∧ (runningAt 3).nextIs .tick ∧ (runningAt 3).run = true ∧
      State.reset.Sound ∧ State.reset.nextIs .tick ∧ State.reset.run = false := by decide

theorem witness_PlacedWordIsRunNext :
    State.reset.Sound ∧ 0xA5 < 256 ∧ decode (BitVec.ofNat 8 0xA5) = .ok (.djnz 5) := by decide

theorem witness_ClrpLowersThePin : (runningAt 0).pc ≤ 5#3 ∧ (runningAt 5).pc ≤ 5#3 := by decide

theorem witness_LdxTakesTheSlot :
    let s := { runningAt 5 with slotFull := true }
    s.pc ≤ 5#3 ∧ s.slotFull = true ∧ (runningAt 1).pc ≤ 5#3 ∧ (runningAt 1).slotFull = false := by decide

theorem witness_LdyLoadsThePreload : (runningAt 2).pc ≤ 5#3 ∧ (runningAt 5).pc ≤ 5#3 := by decide

theorem witness_JneJumpsWhenXDiffersFromY :
    let s := { runningAt 5 with x := 1 }
    s.pc ≤ 5#3 ∧ (5#3 : PcValue) ≤ 5#3 ∧ s.x ≠ s.y ∧ (runningAt 3).pc ≤ 5#3 ∧ (0#3 : PcValue) ≤ 5#3 ∧
      (runningAt 3).x = (runningAt 3).y := by decide

theorem witness_SetpRaisesThePin : (runningAt 4).pc ≤ 5#3 ∧ (runningAt 5).pc ≤ 5#3 := by decide

/-- Y = 0 (wraps, taken), Y = 1 (falls through) and Y = 2 (taken), at both ends of the store. -/
theorem witness_DjnzDecrementsYAndJumps :
    (runningAt 5).pc ≤ 5#3 ∧ (runningAt 0).pc ≤ 5#3 ∧ (0#3 : PcValue) ≤ 5#3 ∧ (5#3 : PcValue) ≤ 5#3 ∧
      (runningAt 5).y.toNat = 0 ∧ 0 < ({ runningAt 5 with y := 1 } : State).y.toNat ∧
      (after (exec (.djnz 0) { runningAt 5 with y := 1 })).map (·.y) = some 0 ∧
      (after (exec (.djnz 5) { runningAt 0 with y := 2 })).map (·.y) = some 1 := by decide

theorem witness_EveryStepKeepsSoundness : State.reset.Sound ∧ step State.reset = .next State.reset :=
  ⟨by decide, rfl⟩

theorem witness_LegalRunNeverStops :
    let s := { runningAt 0 with inputs := [.hostWrite 4 90, .tick, .rst, .hostRead 0] }
    s.Sound ∧ ∀ i ∈ s.inputs, legalInput i = true := by decide

/-- The instructions and accesses that do change the state they own: X and SLOT.FULL by LDX, Y by LDY, PIN by SETP, PC
by each, SLOT by an ANGLE write, RUN by CTRL, PRE, PWMIN and PWMAX by their registers, and all by reset. -/
theorem witness_StepsWriteOnlyWhatTheyOwn :
    (after (step { runningAt 1 with slotVal := 5, slotFull := true })).map (fun t => (t.x, t.slotFull, t.pc)) =
      some (5, false, 2) ∧
    (after (step { runningAt 2 with pre := 5 })).map (·.y) = some 5 ∧
    (after (step (runningAt 5))).map (·.y) = some 0xFFFFFFFF ∧
    (after (step { runningAt 4 with pin := false })).map (·.pin) = some true ∧
    (after (step { runningAt 0 with pin := true })).map (·.pin) = some false ∧
    (after (step { reached [.hostWrite 4 90] with pwmin := 700, pwmax := 2500 })).map
      (fun t => (t.slotVal, t.slotFull)) = some (800, true) ∧
    (after (step (reached [.hostWrite 0 1]))).map (·.run) = some true ∧
    (after (step (reached [.hostWrite 1 9]))).map (·.pre) = some 9 ∧
    (after (step (reached [.hostWrite 2 9]))).map (·.pwmin) = some 9 ∧
    (after (step (reached [.hostWrite 3 9]))).map (·.pwmax) = some 9 ∧
    ({ reached [.hostWrite 0 2] with x := 9 } : State).nextResets = true := by decide

theorem witness_HiddenStateStaysHidden :
    let s := reached [.hostRead 1]
    let s' := { reached [.hostRead 1] with x := 3, y := 4, pc := 5, pin := true, slotFull := true, slotVal := 6 }
    s.hostView = s'.hostView ∧ s.inputs = s'.inputs ∧
      (after (runSteps 1 s)).isSome = true ∧ (after (runSteps 1 s')).isSome = true ∧
      ¬ s.nextIs .tick ∧ s.nextResets = false := by decide

theorem witness_BothCausesOfResetResetEverything :
    (reached [.rst]).inputs = [.rst] ∧ (reached [.hostWrite 0 3]).inputs = [.hostWrite 0 3] ∧
      (3#32).getLsbD 1 = true := by decide

theorem witness_HostReadsReturnOnlyTheFourRegisters :
    (reached [.hostRead 0]).inputs = [.hostRead 0] ∧ 0 ≤ 4 ∧ (reached [.hostRead 4]).inputs = [.hostRead 4] ∧ 4 ≤ 4 := by
  decide

theorem witness_CtrlWriteResetsOrSetsRun :
    (reached [.hostWrite 0 2]).inputs = [.hostWrite 0 2] ∧ (2#32).getLsbD 1 = true ∧
      (reached [.hostWrite 0 1]).inputs = [.hostWrite 0 1] ∧ (1#32).getLsbD 1 = false := by decide

theorem witness_PreWriteOnlyWhileStopped :
    (reached [.hostWrite 1 9]).inputs = [.hostWrite 1 9] ∧ (reached [.hostWrite 1 9]).run = false ∧
      ({ reached [.hostWrite 1 9] with run := true } : State).inputs = [.hostWrite 1 9] := by decide

theorem witness_CalibrationWritesAtAnyTime :
    (reached [.hostWrite 2 9]).inputs = [.hostWrite 2 9] ∧ (reached [.hostWrite 3 9]).inputs = [.hostWrite 3 9] := by
  decide

theorem witness_AngleWritePutsTheMappedCount : (reached [.hostWrite 4 90]).inputs = [.hostWrite 4 90] := by decide

theorem witness_MissingRegistersAreRefused :
    5 ≤ 5 ∧ (reached [.hostRead 5]).inputs = [.hostRead 5] ∧ (reached [.hostWrite 5 1]).inputs = [.hostWrite 5 1] ∧
      (∀ a : BusAccess, (reached [.bus a]).inputs = [.bus a]) ∧
      Config.pseqBase + 0x14 ≤ ({ addr := Config.pseqBase + 0x14, bytes := 4, kind := .read } : BusAccess).addr :=
  ⟨le_rfl, rfl, rfl, fun _ => rfl, le_rfl⟩

theorem witness_BusAccessIsTheRegisterAccess : 0 ≤ 4 ∧ 4 ≤ 4 := by decide

/-- One access for each clause; the clause below PSEQ_BASE has one exactly when the base is not 0 (the base is open). -/
theorem witness_OtherBusAccessesAreRefused :
    (∀ a : BusAccess, (reached [.bus a]).inputs = [.bus a]) ∧
      ({ addr := 0, bytes := 2, kind := .read } : BusAccess).bytes ≠ 4 ∧
      ({ addr := 1, bytes := 4, kind := .read } : BusAccess).addr % 4 ≠ 0 ∧
      (0 < Config.pseqBase → ({ addr := 0, bytes := 4, kind := .read } : BusAccess).addr < Config.pseqBase) :=
  ⟨fun _ => rfl, by decide, by decide, id⟩

theorem witness_RepeatedWritesAreIdempotent : 1 ≤ 1 ∧ 1 ≤ 4 ∧ 4 ≤ 4 := by decide

/-- Puts of 1 and 2 with a tick (`CLRP`) between them, and a calibration write between the last put and the `LDX`. -/
theorem witness_LatestPutWins :
    let s : State := { runningAt 0 with
      pwmax := 360, inputs := [.hostWrite 4 1, .tick, .hostWrite 4 2, .hostWrite 2 700] }
    let t : State := { s with slotVal := 1, slotFull := true, pc := 1, inputs := [.hostWrite 4 2, .hostWrite 2 700] }
    let t' : State := { t with slotVal := 2, inputs := [.hostWrite 2 700] }
    let u : State := { t' with pwmin := 700, inputs := [] }
    holdsAlong State.nextTakesNothing 2 s = true ∧ after (runSteps 2 s) = some t ∧
      t.nextIs (.write .angle 2) ∧ after (step t) = some t' ∧ holdsAlong State.nextLeavesSlot 1 t' = true ∧
      after (runSteps 2 t) = some u ∧ u.nextRuns .ldx := by decide

/-- The boundary: no step before the put, none between it and the `LDX`. -/
theorem witness_LatestPutWins_at_once :
    let t : State := { runningAt 1 with slotVal := 9, slotFull := true, inputs := [.hostWrite 4 0] }
    let u : State := { runningAt 1 with slotFull := true }
    holdsAlong State.nextTakesNothing 0 t = true ∧ after (runSteps 0 t) = some t ∧ t.nextIs (.write .angle 0) ∧
      after (step t) = some u ∧ holdsAlong State.nextLeavesSlot 0 u = true ∧ after (runSteps 1 t) = some u ∧
      u.nextRuns .ldx := by decide

/-- Each order at an empty slot and at a full one. -/
theorem witness_PutAndTakeInEitherOrder :
    let s : State := { runningAt 1 with inputs := [.hostWrite 4 90, .tick] }
    let s' : State := { runningAt 1 with inputs := [.tick, .hostWrite 4 90] }
    (s.run = true ∧ fetchInstr s = .ok .ldx ∧ s.inputs = .hostWrite 4 90 :: .tick :: []) ∧
      (s'.run = true ∧ fetchInstr s' = .ok .ldx ∧ s'.inputs = .tick :: .hostWrite 4 90 :: []) ∧
      (after (runSteps 2 { s with slotVal := 5, slotFull := true, pwmax := 360 })).map
        (fun t => (t.x, t.slotFull, t.slotVal)) = some (90, false, 90) ∧
      (after (runSteps 2 { s' with slotVal := 5, slotFull := true, pwmax := 360 })).map
        (fun t => (t.x, t.slotFull, t.slotVal)) = some (5, true, 90) := by decide

theorem witness_MapDegenerateCalibrations : (700 : ℤ) < 2500 ∧ (0 : ℤ) ≤ 0 ∧ 0 ≤ (0x7FFFFFFF#32).toInt := by decide

theorem witness_InitializeFromAnyState :
    (reached (Driver.initialize 9998 700 2500)).inputs = Driver.initialize 9998 700 2500 ++ [] := by decide

theorem witness_SetAngleIsOneStep :
    -2 ^ 31 ≤ (-2147483648 : ℤ) ∧ (2147483647 : ℤ) < 2 ^ 31 ∧
      (reached (Driver.setAngle (-2147483648))).inputs = Driver.setAngle (-2147483648) ++ [] ∧
      (reached (Driver.setAngle 2147483647)).inputs = Driver.setAngle 2147483647 ++ [] := by decide

theorem witness_StopFreezesEverything :
    (reached [.hostWrite 0 0, .tick, .tick]).inputs = Driver.stop ++ List.replicate 2 .tick ++ [] ∧
      (reached [.hostWrite 0 0, .hostWrite 1 7]).inputs =
        Driver.stop ++ List.replicate 0 .tick ++ .hostWrite 1 7 :: [] := by decide

theorem witness_StopThenStartResumes :
    let s := { runningAt 3 with inputs := [.hostWrite 0 0, .tick, .hostWrite 0 1, .tick] }
    s.run = true ∧ fetchInstr s = .ok (.jne 5) ∧
      s.inputs = Driver.stop ++ List.replicate 1 .tick ++ Driver.start ++ .tick :: [] := by decide

theorem witness_LoopIterationTakesTwoOrThreeTicks :
    let s := { runningAt 3 with x := 1, y := 2 }
    let s' := { runningAt 3 with x := 1, y := 1 }
    (s.run = true ∧ s.pc = 3#3 ∧ s.inputs = [] ∧ s.store = [] ∧ s.x ≠ s.y) ∧
      s'.run = true ∧ s'.pc = 3#3 ∧ s'.inputs = [] ∧ s'.store = [] ∧ s'.x = s'.y := by decide

theorem witness_MatchConditions :
    1 ≤ (1#32).toNat ∧ hasMatch 1#32 1#32 = true ∧ 1 ≤ (0xFFFFFFFF#32).toNat ∧
      hasMatch 0xFFFFFFFF#32 1#32 = true := by decide

theorem witness_PeriodWaveform :
    let s := { runningAt 0 with pre := 9998, x := 350 }
    let s' := { runningAt 0 with pre := 9998, x := 9999 }
    (s.run = true ∧ s.pc = 0#3 ∧ s.inputs = [] ∧ s.store = [] ∧ hasMatch s.pre (sampledX s) = true) ∧
      s'.run = true ∧ s'.pc = 0#3 ∧ s'.inputs = [] ∧ s'.store = [] ∧ hasMatch s'.pre (sampledX s') = false := by decide

theorem witness_PulseIsTwiceXTicks :
    let s := { runningAt 0 with pre := 1, slotVal := 1, slotFull := true }
    s.run = true ∧ s.pc = 0#3 ∧ s.inputs = [] ∧ s.store = [] ∧ 1 ≤ (sampledX s).toNat ∧
      (sampledX s).toNat ≤ s.pre.toNat := by decide

theorem witness_InitializeThenSetAngleGivesThePulse :
    let s := reached (Driver.initialize 9998 700 2500 ++ Driver.setAngle 90)
    s.store = [] ∧ -2 ^ 31 ≤ (90 : ℤ) ∧ (90 : ℤ) < 2 ^ 31 ∧
      s.inputs = Driver.initialize 9998 700 2500 ++ Driver.setAngle 90 ∧
      1 ≤ (mapCount (700#32).toNat (2500#32).toNat 90).toNat ∧
      (mapCount (700#32).toNat (2500#32).toNat 90).toNat ≤ (9998#32).toNat := by decide

theorem witness_PeriodEndsAfterItsLength :
    let s := { runningAt 0 with pre := 1 }
    s.run = true ∧ s.pc = 0#3 ∧ s.inputs = [] ∧ s.store = [] ∧ 0 < 4 ∧ 4 < periodLength s.pre (sampledX s) := by decide

theorem witness_ReferencePeriods : 1 ≤ Config.preRef.toNat ∧ hasMatch Config.preRef 350#32 = true := by decide

theorem witness_LateAngleWaitsForTheNextPeriod :
    let s := { runningAt 0 with pre := 1, x := 1 }
    s.run = true ∧ s.pc = 0#3 ∧ s.inputs = [] ∧ s.store = [] ∧ 2 ≤ 2 ∧ 2 ≤ periodLength s.pre (sampledX s) ∧
      2 ≤ 6 ∧ 6 ≤ periodLength s.pre (sampledX s) := by decide

theorem witness_IllFormedBranchesEncodeToReservedWords : (5#3 : PcValue) < 6#3 ∧ (5#3 : PcValue) < 7#3 := by decide

end Sys2Proof.Tests
end

section
/-! PROOFS. What the host sees, and what its accesses cannot write (10_state.md R36).

The host's view (`State.hostView`) is closed under every event: an instruction leaves it alone, and what a host access or
a reset makes of it is determined by the view alone. So two runs over the same inputs that start with one view keep one
view, which is the noninterference half of O23. -/

namespace Sys2Proof.Machine

/-! ### The host's view, piece by piece -/

theorem State.hostView_eq_iff (s s' : State) :
    s.hostView = s'.hostView ↔ s.run = s'.run ∧ s.pre = s'.pre ∧ s.pwmin = s'.pwmin ∧ s.pwmax = s'.pwmax ∧
      s.readData = s'.readData := by
  simp [State.hostView]

/-- No instruction writes anything the host can see (10_state.md R40). -/
theorem execState_hostView (i : Instr) (s : State) : (execState i s).hostView = s.hostView := by
  obtain ⟨hpre, -, hrun, hmin, hmax, -, hread, -⟩ := exec_sequencerFrame (exec_eq i s)
  exact (State.hostView_eq_iff _ _).2 ⟨hrun, hpre, hmin, hmax, hread⟩

/-- A tick changes nothing the host can see, whether it runs an instruction or not. -/
theorem tick_hostView {s t : State} (h : tick s = .next t) : t.hostView = s.hostView := by
  rcases tick_next h with ⟨-, rfl⟩ | ⟨-, i, -, rfl⟩
  · rfl
  · exact execState_hostView i s

/-! ### What an event makes of the view is determined by the view -/

section
variable {s s' : State} (hv : s.hostView = s'.hostView)
include hv

/-- A host read answers from the view (43_host_operations.md R146). -/
theorem regRead_congr (r : HostReg) : regRead r s = regRead r s' := by
  obtain ⟨hrun, hpre, hmin, hmax, -⟩ := (State.hostView_eq_iff s s').1 hv
  cases r with
  | ctrl => exact congrArg runWord hrun
  | pre => exact hpre
  | pwmin => exact hmin
  | pwmax => exact hmax
  | angle => rfl

theorem hostReads_hostView_congr (r : HostReg) : (hostReads r s).hostView = (hostReads r s').hostView := by
  obtain ⟨hrun, hpre, hmin, hmax, -⟩ := (State.hostView_eq_iff s s').1 hv
  exact (State.hostView_eq_iff _ _).2 ⟨hrun, hpre, hmin, hmax, congrArg some (regRead_congr hv r)⟩

theorem resetPseq_hostView_congr : s.resetPseq.hostView = s'.resetPseq.hostView := by
  obtain ⟨-, -, -, -, hread⟩ := (State.hostView_eq_iff s s').1 hv
  exact (State.hostView_eq_iff _ _).2 ⟨rfl, rfl, rfl, rfl, hread⟩

/-- The two guards of a write, RST in the word written and RUN for PRE, are themselves in the host's view
(43_host_operations.md R147, R148). -/
theorem regWrite_hostView_congr (r : HostReg) (v : Word) :
    (regWrite r v s).hostView = (regWrite r v s').hostView := by
  obtain ⟨hrun, hpre, hmin, hmax, hread⟩ := (State.hostView_eq_iff s s').1 hv
  cases r with
  | ctrl =>
    cases hrst : ctrlRstBit v with
    | true => simpa only [regWrite, writeCtrl_rst v _ hrst] using resetPseq_hostView_congr hv
    | false => simp [regWrite, writeCtrl_run v _ hrst, hpre, hmin, hmax, hread]
  | pre => simp [regWrite, hrun, hpre, hmin, hmax, hread]
  | pwmin => simp [regWrite, hrun, hpre, hmax, hread]
  | pwmax => simp [regWrite, hrun, hpre, hmin, hread]
  | angle => simpa [regWrite] using hv

/-- One event, performed on two machines of the same view, leaves them of the same view. -/
theorem perform_hostView_congr {e : Event} {t t' : State} (h : perform e s = .next t) (h' : perform e s' = .next t') :
    t.hostView = t'.hostView := by
  cases e with
  | tick => exact (tick_hostView h).trans (hv.trans (tick_hostView h').symm)
  | reset =>
    cases h; cases h'
    exact resetPseq_hostView_congr hv
  | read r =>
    cases h; cases h'
    exact hostReads_hostView_congr hv r
  | write r v =>
    cases h; cases h'
    exact regWrite_hostView_congr hv r v

end

/-! ### Steps and runs of two machines -/

/-- The event a step performs is named by the inputs alone. -/
theorem nextIs_congr {s s' : State} (hin : s.inputs = s'.inputs) (e : Event) : s.nextIs e ↔ s'.nextIs e := by
  simp only [State.nextIs, nextInput, hin]

theorem step_hostView_congr {s s' t t' : State} (hv : s.hostView = s'.hostView) (hin : s.inputs = s'.inputs)
    (h : step s = .next t) (h' : step s' = .next t') : t.hostView = t'.hostView := by
  obtain ⟨e, he, hp⟩ := step_next h
  have hp' : perform e s'.consumed = .next t' := step_of_event ((nextIs_congr hin e).1 he) ▸ h'
  have hvc : s.consumed.hostView = s'.consumed.hostView := hv
  exact perform_hostView_congr hvc hp hp'

/-- A run of at least one step that is not ended by a refusal begins with a step to a next state. -/
theorem runSteps_succ_next {k : Nat} {s t : State} (h : runSteps (k + 1) s = .next t) :
    ∃ u, step s = .next u ∧ runSteps k u = .next t := by
  cases hs : step s with
  | next u => exact ⟨u, rfl, runSteps_succ hs ▸ h⟩
  | fault r => cases r
  | refused r => simp [runSteps, hs] at h

/-- Noninterference (10_state.md R36): two machines of the same view that the same inputs reach keep the same view. -/
theorem runSteps_hostView_congr {k : Nat} {s s' t t' : State} (hv : s.hostView = s'.hostView)
    (hin : s.inputs = s'.inputs) (h : runSteps k s = .next t) (h' : runSteps k s' = .next t') :
    t.hostView = t'.hostView := by
  induction k generalizing s s' with
  | zero =>
    cases h; cases h'
    exact hv
  | succ k ih =>
    obtain ⟨u, hu, hrest⟩ := runSteps_succ_next h
    obtain ⟨u', hu', hrest'⟩ := runSteps_succ_next h'
    have hinu : u.inputs = u'.inputs := by rw [step_inputs hu, step_inputs hu', hin]
    exact ih (step_hostView_congr hv hin hu hu') hinu hrest hrest'

/-! ### What a host access cannot write -/

theorem nextResets_of_nextIs {s : State} {e : Event} (h : s.nextIs e) : s.nextResets = eventResets e := by
  rw [State.nextResets, h]

/-- A host write that is no reset leaves X, Y, PC and PIN (10_state.md R36, R40). -/
theorem regWrite_hidden {r : HostReg} {v : Word} (s : State) (hr : eventResets (.write r v) = false) :
    (regWrite r v s).x = s.x ∧ (regWrite r v s).y = s.y ∧ (regWrite r v s).pc = s.pc ∧
      (regWrite r v s).pin = s.pin := by
  cases r with
  | ctrl =>
    have hrst : ctrlRstBit v = false := by simpa [eventResets] using hr
    rw [regWrite, writeCtrl_run v s hrst]
    exact ⟨rfl, rfl, rfl, rfl⟩
  | _ => simp [regWrite]

/-- A step that is neither a tick nor a reset is a host access, and leaves X, Y, PC and PIN. -/
theorem step_hidden_of_hostAccess {s t : State} (h : step s = .next t) (hnt : ¬ s.nextIs .tick)
    (hnr : s.nextResets = false) : t.x = s.x ∧ t.y = s.y ∧ t.pc = s.pc ∧ t.pin = s.pin := by
  rcases step_cases h with ⟨ht, -, -⟩ | ⟨i, ⟨ht, -, -⟩, -⟩ | ⟨he, -⟩ | ⟨r, -, rfl⟩ | ⟨r, v, he, rfl⟩
  case inl | inr.inl => exact absurd ht hnt
  case inr.inr.inl => simp [nextResets_of_nextIs he, eventResets] at hnr
  case inr.inr.inr.inl => exact ⟨rfl, rfl, rfl, rfl⟩
  case inr.inr.inr.inr => exact regWrite_hidden s.consumed (nextResets_of_nextIs he ▸ hnr)

/-- Settles O23: the noninterference half by induction on the number of steps, the other by the cases of one step. -/
theorem hiddenStateStaysHidden : Obligations.HiddenStateStaysHidden :=
  ⟨fun _ _ _ _ _ hv hin h h' => runSteps_hostView_congr hv hin h h',
    fun _ _ h hnt hnr => step_hidden_of_hostAccess h hnt hnr⟩

end Sys2Proof.Machine
end

section
/-! PROOFS. The program store, the program counter, the handoff slot and the register addresses (20_memory.md).

What a run keeps is said once (`runSteps_keeps`): a piece of state that every step meeting a condition leaves alone is
unchanged after steps that all meet it. For LatestPutWins the condition is that a step takes nothing, for X, and that it
leaves the slot, for the count of the last put. What a step does with an input is settled by `eventOf` alone: two inputs
that are the same event step alike, and an input that is none is refused. -/

namespace Sys2Proof.Machine

/-! ### The program store and the fetch (20_memory.md R51, R52, R53) -/

/-- No step writes the program store: not an instruction, not a reset, not a host access (20_memory.md R51). -/
theorem step_store {s t : State} (h : step s = .next t) : t.store = s.store := by
  rcases step_cases h with ⟨-, -, rfl⟩ | ⟨i, -, rfl⟩ | ⟨-, rfl⟩ | ⟨r, -, rfl⟩ | ⟨r, v, -, rfl⟩
  case inr.inl =>
    obtain ⟨-, -, -, -, -, -, -, hstore, -⟩ := exec_sequencerFrame (exec_eq i s.consumed)
    exact hstore
  all_goals simp

/-- Settles O7: the reset words by evaluation, the rest by the cases of one step. -/
theorem programStoreIsReadOnly : Obligations.ProgramStoreIsReadOnly :=
  ⟨by decide, by decide, fun _ _ h => ⟨step_store h, fun a => congrArg (Memory.readWord · a) (step_store h)⟩⟩

/-- Settles O8: in a sound state the fetch answers an instruction, and it can only have read it at PC. -/
theorem fetchReadsTheWordAtPc : Obligations.FetchReadsTheWordAtPc := by
  intro s hs
  obtain ⟨i, hi⟩ := fetchInstr_of_sound hs
  obtain ⟨w, hw, hdec, -⟩ := fetchInstr_ok hi
  exact ⟨w, i, hw, hdec, hi⟩

/-- Settles O9, by the ring law of `nextPc`. -/
theorem nextPcIsTheRingSuccessor : Obligations.NextPcIsTheRingSuccessor := by
  refine ⟨fun p hp => ?_, nextPc_of_le (p := 5#3) (by decide)⟩
  have hle : p ≤ 5#3 := by bv_omega
  have hne : p ≠ 5#3 := by rintro rfl; exact absurd hp (by decide)
  rw [nextPc_of_le hle, if_neg hne]
  bv_omega

/-! ### What a run keeps -/

theorem holdsAlong_of_step {p : State → Bool} {k : Nat} {s t : State} (ha : holdsAlong p (k + 1) s = true)
    (h : step s = .next t) : p s = true ∧ holdsAlong p k t = true := by
  simpa [holdsAlong, h] using ha

/-- A piece of state that every step meeting `p` leaves alone is unchanged after a run of such steps. -/
theorem runSteps_keeps {α : Type} {p : State → Bool} {f : State → α}
    (hstep : ∀ {s t : State}, step s = .next t → p s = true → f t = f s) {k : Nat} {s t : State}
    (ha : holdsAlong p k s = true) (h : runSteps k s = .next t) : f t = f s := by
  induction k generalizing s with
  | zero => cases h; rfl
  | succ k ih =>
    obtain ⟨u, hu, hrest⟩ := runSteps_succ_next h
    obtain ⟨hp, hau⟩ := holdsAlong_of_step ha hu
    exact (ih hau hrest).trans (hstep hu hp)

/-! ### The latest put (20_memory.md R59) -/

theorem nextTakesNothing_of_leavesSlot {s : State} (h : s.nextLeavesSlot = true) : s.nextTakesNothing = true :=
  (Bool.and_eq_true_iff.1 h).1

/-- A step that leaves the slot alone leaves X with it: nothing is sampled. -/
theorem step_sampling_of_leavesSlot {s t : State} (h : step s = .next t) (hs : s.nextLeavesSlot = true) :
    (t.x, t.slotVal, t.slotFull) = (s.x, s.slotVal, s.slotFull) := by
  obtain ⟨hval, hfull⟩ := step_slot_of_leavesSlot h hs
  rw [step_x_of_takesNothing h (nextTakesNothing_of_leavesSlot hs), hval, hfull]

theorem step_of_nextRuns {s : State} {i : Instr} (h : s.nextRuns i) : step s = .next (execState i s.consumed) := by
  obtain ⟨htick, hrun, hfetch⟩ := h
  exact (step_of_event htick).trans (tick_running hrun hfetch)

/-- Settles O35: no step before the last put takes, so X is kept; the put overwrites the slot; the steps after it keep X
and the slot up to the `LDX`, which samples the slot. -/
theorem latestPutWins : Obligations.LatestPutWins := by
  intro s t u j k v htakes hst hput hleaves htu hldx
  have hxt : t.x = s.x := runSteps_keeps (f := State.x) step_x_of_takesNothing htakes hst
  have hstep : step t = .next (writeAngle v t.consumed) := step_of_event hput
  have hrun : runSteps k (writeAngle v t.consumed) = .next u := runSteps_succ hstep ▸ htu
  have hkept : (u.x, u.slotVal, u.slotFull) = (t.x, mapAngle t.pwmin t.pwmax v, true) :=
    runSteps_keeps (f := fun s => (s.x, s.slotVal, s.slotFull)) step_sampling_of_leavesSlot (hleaves _ hstep) hrun
  obtain ⟨hxu, hval, hfull⟩ : u.x = t.x ∧ u.slotVal = mapAngle t.pwmin t.pwmax v ∧ u.slotFull = true := by
    simpa using hkept
  have hsampled : sampledX u.consumed = mapAngle t.pwmin t.pwmax v := by simp [sampledX, hval, hfull]
  exact ⟨hxt, hxu.trans hxt, hfull, hval, _, step_of_nextRuns hldx, hsampled, rfl⟩

/-! ### Registers that exist and registers that do not (20_memory.md R54, R56) -/

theorem regOfNumber_eq_none {n : Nat} (h : 5 ≤ n) : regOfNumber n = none := by
  rw [← Option.not_isSome_iff_eq_none, regOfNumber_isSome]
  omega

theorem exists_regOfNumber {n : Nat} (h : n ≤ 4) : ∃ r, regOfNumber n = some r :=
  Option.isSome_iff_exists.1 ((regOfNumber_isSome n).2 h)

/-- The converse of `busRegister_ok`. -/
theorem busRegister_of_wholeWord {a : BusAccess} {r : HostReg} (hbytes : a.bytes = 4) (haligned : a.addr % 4 = 0)
    (hbase : Config.pseqBase ≤ a.addr) (hr : regOfNumber ((a.addr - Config.pseqBase) / 4) = some r) :
    busRegister a = .ok r := by
  simp [busRegister, hbytes, haligned, not_lt.2 hbase, hr]

theorem pseqBase_mod_four : Config.pseqBase % 4 = 0 := Nat.mul_mod_right 4 _

/-- A whole-word access at `PSEQ_BASE + 4 n` names register `n` (20_memory.md R54). -/
theorem busRegister_of_number {n : Nat} {r : HostReg} (kind : BusKind) (hr : regOfNumber n = some r) :
    busRegister { addr := Config.pseqBase + 4 * n, bytes := 4, kind } = .ok r := by
  have hbase := pseqBase_mod_four
  have hindex : (Config.pseqBase + 4 * n - Config.pseqBase) / 4 = n := by omega
  have haligned : (Config.pseqBase + 4 * n) % 4 = 0 := by omega
  exact busRegister_of_wholeWord rfl haligned (Nat.le_add_right _ _) (hindex.symm ▸ hr)

/-- From a byte offset of 0x14 on no bus access names a register (20_memory.md R56). -/
theorem busRegister_above {a : BusAccess} (h : Config.pseqBase + 0x14 ≤ a.addr) : ∃ e, busRegister a = .error e := by
  cases hb : busRegister a with
  | error e => exact ⟨e, rfl⟩
  | ok r =>
    obtain ⟨-, -, -, hr⟩ := busRegister_ok hb
    have hnone := regOfNumber_eq_none (n := (a.addr - Config.pseqBase) / 4) (by omega)
    simp [hnone] at hr

/-- An input that is no event is refused for the reason `eventOf` gives (60_exceptions.md R180). -/
theorem step_refused {s : State} {i : Input} {rest : List Input} {e : Refusal} (h : s.inputs = i :: rest)
    (he : eventOf i = .error e) : step s = .refused e := by
  simp [step, performInput, nextInput, h, he]

/-- Settles O31: no register has a number from 5 on, nor an address from offset 0x14 on. -/
theorem missingRegistersAreRefused : Obligations.MissingRegistersAreRefused := by
  refine ⟨fun s n v rest hn hin => ?_, fun s a rest hin haddr => ?_⟩
  · have hnone := regOfNumber_eq_none hn
    rcases hin with hread | hwrite
    · exact step_refused hread (by simp [eventOf, hnone])
    · exact step_refused hwrite (by simp [eventOf, hnone])
  · obtain ⟨e, he⟩ := busRegister_above haddr
    exact ⟨e, step_refused hin (by simp [eventOf, he])⟩

/-- Two inputs that are the same event step alike. -/
theorem step_congr_event {i i' : Input} (s : State) (rest : List Input) (h : eventOf i = eventOf i') :
    step { s with inputs := i :: rest } = step { s with inputs := i' :: rest } := by
  simp [step, performInput, nextInput, State.consumed, h]

/-- Settles O32: the bus access and the access by number are the same event. -/
theorem busAccessIsTheRegisterAccess : Obligations.BusAccessIsTheRegisterAccess := by
  refine ⟨pseqBase_mod_four, fun s n v rest hn => ?_⟩
  obtain ⟨r, hr⟩ := exists_regOfNumber hn
  have hread := busRegister_of_number .read hr
  have hwrite := busRegister_of_number (.write v) hr
  exact ⟨step_congr_event s rest (by simp [eventOf, accessEvent, hread, hr]),
    step_congr_event s rest (by simp [eventOf, accessEvent, hwrite, hr]), _, step_hostRead rfl hr⟩

end Sys2Proof.Machine
end

section
/-! PROOFS. The opcode map, the encoder and the decoder (30_encoding.md R71 to R80).

A word is its three fields, and both the decoder and the encoder are read off them: `decode` answers an instruction
exactly when the fields are the opcode, 00 and the operand of a well-formed one, which is when `encode` of it is the
word. The opcode map and the round trips follow. -/

namespace Sys2Proof

open Laws

/-! ### The fields of a word (30_encoding.md R71) -/

/-- The fields of a word are its 8 bits, in order. -/
theorem fields_append (w : Byte) : opField w ++ zField w ++ aField w = w := by
  have hhigh : opField w ++ zField w = w.extractLsb' 3 5 := BitVec.extractLsb'_append_extractLsb'_eq_extractLsb' rfl
  have hall : w.extractLsb' 3 5 ++ aField w = w.extractLsb' 0 8 :=
    BitVec.extractLsb'_append_extractLsb'_eq_extractLsb' rfl
  rw [hhigh, hall, BitVec.extractLsb'_eq_self]

theorem word_eq_iff_fields (v w : Byte) :
    v = w ↔ opField v = opField w ∧ zField v = zField w ∧ aField v = aField w := by
  refine ⟨by rintro rfl; simp, ?_⟩
  rintro ⟨hop, hz, ha⟩
  rw [← fields_append v, ← fields_append w, hop, hz, ha]

theorem opField_and (v w : Byte) : opField (v &&& w) = opField v &&& opField w := BitVec.extractLsb'_and

theorem zField_and (v w : Byte) : zField (v &&& w) = zField v &&& zField w := BitVec.extractLsb'_and

theorem aField_and (v w : Byte) : aField (v &&& w) = aField v &&& aField w := BitVec.extractLsb'_and

/-- The mask of format N keeps the whole word. -/
theorem and_maskN (w : Byte) : w &&& 0xFF#8 = w := BitVec.and_allOnes

/-- The mask of format J keeps `op` and `z` and clears `a`. -/
theorem and_maskJ_eq_iff {w m : Byte} (hz : zField m = 0#2) (ha : aField m = 0#3) :
    w &&& 0xF8#8 = m ↔ opField w = opField m ∧ zField w = 0#2 := by
  have hop : opField (w &&& 0xF8#8) = opField w := (opField_and _ _).trans BitVec.and_allOnes
  have hzw : zField (w &&& 0xF8#8) = zField w := (zField_and _ _).trans BitVec.and_allOnes
  have haw : aField (w &&& 0xF8#8) = 0#3 := (aField_and _ _).trans BitVec.and_zero
  rw [word_eq_iff_fields, hop, hzw, haw, hz, ha]
  simp

/-! ### The encoder by fields -/

theorem encodedFields : ∀ i : Instr, EncodedFields.Statement i
  | .clrp => EncodedFields.clrp
  | .ldx => EncodedFields.ldx
  | .ldy => EncodedFields.ldy
  | .jne a => EncodedFields.jne a
  | .setp => EncodedFields.setp
  | .djnz a => EncodedFields.djnz a

theorem encode_eq_iff_fields (i : Instr) (w : Byte) :
    encode i = w ↔ opField w = opcodeOf i ∧ zField w = 0#2 ∧ aField w = operandOf i := by
  obtain ⟨hop, hz, ha⟩ := encodedFields i
  rw [eq_comm, word_eq_iff_fields, hop, hz, ha]

/-! ### The decoder by fields -/

theorem decodeN_eq_ok_iff (i j : Instr) (w : Byte) : decodeN i w = .ok j ↔ aField w = 0#3 ∧ i = j := by
  unfold decodeN
  split <;> simp [*]

theorem decodeJ_eq_ok_iff (i : PcValue → Instr) (j : Instr) (w : Byte) :
    decodeJ i w = .ok j ↔ targetLegal (aField w) = true ∧ i (aField w) = j := by
  unfold decodeJ
  split <;> simp [*]

/-- An instruction that comes out of the decoder is well formed, and the word has its fields. -/
theorem fields_of_decode {w : Byte} {i : Instr} (h : decode w = .ok i) :
    (opField w = opcodeOf i ∧ zField w = 0#2 ∧ aField w = operandOf i) ∧ i.wellFormed = true := by
  unfold decode at h
  split at h
  next hz =>
    split at h
    case h_4 hop | h_6 hop =>
      obtain ⟨ha, rfl⟩ := (decodeJ_eq_ok_iff _ _ _).1 h
      exact ⟨⟨hop, hz, rfl⟩, ha⟩
    case h_7 => cases h
    all_goals
      next hop =>
        obtain ⟨ha, rfl⟩ := (decodeN_eq_ok_iff _ _ _).1 h
        exact ⟨⟨hop, hz, ha⟩, rfl⟩
  next => split at h <;> cases h

/-- A word with the fields of a well-formed instruction decodes to it. -/
theorem decode_of_fields {w : Byte} {i : Instr} (hop : opField w = opcodeOf i) (hz : zField w = 0#2)
    (ha : aField w = operandOf i) (hi : i.wellFormed = true) : decode w = .ok i := by
  unfold decode
  rw [if_pos hz, hop]
  cases i with
  | clrp | ldx | ldy | setp => exact (decodeN_eq_ok_iff _ _ _).2 ⟨ha, rfl⟩
  | jne a | djnz a =>
    obtain rfl : aField w = a := ha
    exact (decodeJ_eq_ok_iff _ _ _).2 ⟨hi, rfl⟩

theorem decode_eq_ok_iff_fields (w : Byte) (i : Instr) :
    decode w = .ok i ↔
      (opField w = opcodeOf i ∧ zField w = 0#2 ∧ aField w = operandOf i) ∧ i.wellFormed = true :=
  ⟨fields_of_decode, fun ⟨⟨hop, hz, ha⟩, hi⟩ => decode_of_fields hop hz ha hi⟩

/-- The decoder inverts the encoder on the well-formed instructions, and answers no other (30_encoding.md R76). -/
theorem decode_eq_ok_iff (w : Byte) (i : Instr) : decode w = .ok i ↔ encode i = w ∧ i.wellFormed = true := by
  rw [decode_eq_ok_iff_fields, encode_eq_iff_fields]

/-- A word is ILLEGAL exactly when it decodes to no instruction. -/
theorem decode_eq_error_iff (w : Byte) : (∃ r, decode w = .error r) ↔ ¬ ∃ i, decode w = .ok i := by
  cases decode w <;> simp

/-! ### The rows of the opcode map (30_encoding.md R74) -/

/-- A row of format N: its mask is 0xFF and its match is the word of the instruction. -/
theorem decode_eq_ok_iff_matchN {i : Instr} (hi : i.wellFormed = true) (w : Byte) :
    decode w = .ok i ↔ w &&& 0xFF#8 = encode i := by
  rw [decode_eq_ok_iff, and_maskN, eq_comm, and_iff_left hi]

theorem targetLegal_iff (a : PcValue) : targetLegal a = true ↔ a ≤ 5#3 := decide_eq_true_iff

/-- A row of format J, for a branch `i` with opcode `opField m`. -/
theorem decode_eq_ok_iff_matchJ {i : Instr} {a : PcValue} {m : Byte} (hop : opcodeOf i = opField m)
    (ha : operandOf i = a) (hi : i.wellFormed = targetLegal a) (hmz : zField m = 0#2) (hma : aField m = 0#3)
    (w : Byte) :
    decode w = .ok i ↔ w &&& 0xF8#8 = m ∧ w.extractLsb' 0 3 = a ∧ a ≤ 5#3 := by
  rw [decode_eq_ok_iff_fields, and_maskJ_eq_iff hmz hma, hop, ha, hi, targetLegal_iff, ← aField]
  simp only [and_assoc]

/-- Settles O1: one row of format N or J per instruction. -/
theorem decodeMatchesOpcodeMap : Obligations.DecodeMatchesOpcodeMap := fun w =>
  ⟨decode_eq_ok_iff_matchN rfl w, decode_eq_ok_iff_matchN rfl w, decode_eq_ok_iff_matchN rfl w,
    fun _ => decode_eq_ok_iff_matchJ rfl rfl rfl rfl rfl w, decode_eq_ok_iff_matchN rfl w,
    fun _ => decode_eq_ok_iff_matchJ rfl rfl rfl rfl rfl w⟩

/-! ### The encoder's table and the round trips (30_encoding.md R76) -/

/-- The word of a branch is its match of the opcode map with the target added in bits 2:0. -/
theorem encode_branch (a : PcValue) :
    encode (.jne a) = 0x60#8 + a.setWidth 8 ∧ encode (.djnz a) = 0xA0#8 + a.setWidth 8 := by
  revert a
  decide

/-- Settles O2: the table is computed, and the round trips are the two directions of `decode_eq_ok_iff`. -/
theorem encoderTableAndRoundTrips : Obligations.EncoderTableAndRoundTrips := by
  refine ⟨rfl, rfl, rfl, rfl, fun a _ => (encode_branch a).1, fun a _ => (encode_branch a).2,
    fun i hi => (decode_eq_ok_iff _ i).2 ⟨rfl, hi⟩, fun w i => (decode_eq_ok_iff w i).1, fun w => ?_⟩
  rw [decode_eq_error_iff]
  simp only [decode_eq_ok_iff, and_comm]

end Sys2Proof
end

section
/-! PROOFS. The tick and the six instructions (40_sequencer_instructions.md sections 1 and 2).

Every instruction completes in `execState` (`exec_eq`), so each statement is read off that state: the fields it names,
the PC by the ring law `nextPc_of_le`, and the frame by `execState_sequencerFrame`. The two branches share their PC rules,
and each has an equivalence that says when its condition holds. -/

namespace Sys2Proof.Machine

/-! ### The tick (40_sequencer_instructions.md R90) -/

/-- A tick while running performs the fetched instruction on the state with the tick consumed. -/
theorem step_tick_running {s : State} {i : Instr} (htick : s.nextIs .tick) (hrun : s.run = true)
    (hfetch : fetchInstr s = .ok i) : step s = exec i s.consumed :=
  (step_of_nextRuns ⟨htick, hrun, hfetch⟩).trans (exec_eq i s.consumed).symm

/-- A tick while stopped is consumed and does nothing else. -/
theorem step_tick_stopped {s : State} (htick : s.nextIs .tick) (hrun : s.run = false) : step s = .next s.consumed :=
  (step_of_event htick).trans (tick_stopped (s := s.consumed) hrun)

/-- Settles O11: a sound state fetches an instruction, which the tick runs when RUN = 1. -/
theorem tickStepsExactlyWhenRunning : Obligations.TickStepsExactlyWhenRunning := by
  intro s hs htick
  obtain ⟨i, hi⟩ := fetchInstr_of_sound hs
  exact ⟨fun hrun => ⟨i, hi, step_tick_running htick hrun hi⟩, step_tick_stopped htick⟩

/-! ### The instructions that go on to next(PC) (R93, R94, R95, R97) -/

theorem execState_sequencerFrame (i : Instr) (s : State) : sequencerFrame s (execState i s) :=
  exec_sequencerFrame (exec_eq i s)

/-- Settles O13, in the state `exec_eq` names. -/
theorem clrpLowersThePin : Obligations.ClrpLowersThePin :=
  ⟨rfl, fun s hpc => ⟨_, exec_eq .clrp s, rfl, nextPc_of_le hpc, rfl, rfl, rfl, execState_sequencerFrame _ s⟩⟩

theorem sampledX_of_full {s : State} (h : s.slotFull = true) : sampledX s = s.slotVal := by simp [sampledX, h]

theorem sampledX_of_empty {s : State} (h : s.slotFull = false) : sampledX s = s.x := by simp [sampledX, h]

/-- Settles O14: X becomes the value sampled, which is VAL of a full slot and X of an empty one. -/
theorem ldxTakesTheSlot : Obligations.LdxTakesTheSlot :=
  ⟨rfl, fun s hpc => ⟨_, exec_eq .ldx s, sampledX_of_full, sampledX_of_empty, rfl, nextPc_of_le hpc, rfl, rfl,
    execState_sequencerFrame _ s⟩⟩

/-- Settles O15, in the state `exec_eq` names. -/
theorem ldyLoadsThePreload : Obligations.LdyLoadsThePreload :=
  ⟨rfl, fun s hpc => ⟨_, exec_eq .ldy s, rfl, nextPc_of_le hpc, rfl, rfl, rfl, execState_sequencerFrame _ s⟩⟩

/-- Settles O17, in the state `exec_eq` names. -/
theorem setpRaisesThePin : Obligations.SetpRaisesThePin :=
  ⟨rfl, fun s hpc => ⟨_, exec_eq .setp s, rfl, nextPc_of_le hpc, rfl, rfl, rfl, execState_sequencerFrame _ s⟩⟩

/-! ### The branches (R96, R98) -/

theorem jneTaken_iff (x y : Word) : jneTaken x y = true ↔ x ≠ y := decide_eq_true_iff

theorem djnzTaken_iff (y1 : Word) : djnzTaken y1 = true ↔ y1 ≠ 0#32 := decide_eq_true_iff

theorem State.branch_pc_taken (s : State) {c : Bool} (t : PcValue) (hc : c = true) : (s.branch c t).pc = t := by
  rw [State.branch_pc, if_pos hc]

theorem State.branch_pc_fallThrough {s : State} (hpc : s.pc ≤ 5#3) {c : Bool} (t : PcValue) (hc : ¬ c = true) :
    (s.branch c t).pc = if s.pc = 5#3 then 0#3 else s.pc + 1#3 := by
  rw [State.branch_pc, if_neg hc, nextPc_of_le hpc]

/-- Settles O16: the two outcomes of a branch on X != Y. -/
theorem jneJumpsWhenXDiffersFromY : Obligations.JneJumpsWhenXDiffersFromY := by
  refine ⟨fun a _ => (encode_branch a).1, fun s a hpc _ => ⟨_, exec_eq (.jne a) s, ?taken, ?fallThrough,
    State.branch_x .., State.branch_y .., State.branch_pin .., State.branch_slotFull .., execState_sequencerFrame _ s⟩⟩
  case taken => exact fun hne => State.branch_pc_taken s a ((jneTaken_iff _ _).2 hne)
  case fallThrough => exact fun heq => State.branch_pc_fallThrough hpc a fun h => (jneTaken_iff _ _).1 h heq

/-- The decrement wraps at 0 (R98). -/
theorem decremented_toNat_of_zero {y : Word} (h : y.toNat = 0) : (decremented y).toNat = 2 ^ 32 - 1 := by
  unfold decremented
  bv_omega

theorem decremented_toNat_of_pos {y : Word} (h : 0 < y.toNat) : (decremented y).toNat = y.toNat - 1 := by
  unfold decremented
  bv_omega

/-- A `DJNZ` leaves the decremented value in Y, whichever way it goes. -/
theorem execState_djnz_y (a : PcValue) (s : State) : (execState (.djnz a) s).y = decremented s.y :=
  State.branch_y ..

/-- Settles O18: the decrement on its unsigned reading, and the two outcomes of a branch on the NEW Y. -/
theorem djnzDecrementsYAndJumps : Obligations.DjnzDecrementsYAndJumps := by
  refine ⟨fun a _ => (encode_branch a).2, fun s a hpc _ => ⟨_, exec_eq (.djnz a) s, ?_⟩⟩
  rw [execState_djnz_y]
  refine ⟨decremented_toNat_of_zero, decremented_toNat_of_pos, ?taken, ?fallThrough, State.branch_x ..,
    State.branch_pin .., State.branch_slotFull .., execState_sequencerFrame _ s⟩
  case taken => exact fun hne => State.branch_pc_taken _ a ((djnzTaken_iff _).2 hne)
  case fallThrough =>
    have hpc' : (s.setY (decremented s.y)).pc ≤ 5#3 := hpc
    exact fun heq => State.branch_pc_fallThrough hpc' a fun h => (djnzTaken_iff _).1 h heq

end Sys2Proof.Machine
end

section
/-! PROOFS. The mapper's exact division and its worked values (42_angle_mapper.md R131, R136).

`mapT_eq_ediv` names the divisor once, the constant 360. From it follow the two readings used here: the floor of the
rational quotient, and the quotient itself where the numerator is a multiple of 360. -/

namespace Sys2Proof.Machine

/-! ### The floor of the exact quotient (R131) -/

/-- The integer division loses nothing but the one floor: it is the floor of the quotient over the rationals. -/
theorem mapT_eq_floor (mn mx a : ℤ) : mapT mn mx a = ⌊(mapNum mn mx a : ℚ) / (180 * 2)⌋ := by
  have hdivisor : (180 * 2 : ℚ) = ((360 : ℕ) : ℚ) := by norm_num
  rw [mapT_eq_ediv, hdivisor, Rat.floor_intCast_div_natCast, Nat.cast_ofNat]

/-- Settles O37: the numerator is the rule's, and the count is the word of the floor. -/
theorem mapIsTheTruncatedFloor : Obligations.MapIsTheTruncatedFloor := fun mn mx a =>
  ⟨mapNum_eq mn mx a, mapT_eq_floor mn mx a, congrArg (BitVec.ofInt 32) (mapT_eq_floor mn mx a)⟩

/-! ### The reference calibration (R136) -/

/-- Where the numerator is a multiple of the divisor, the mapper's division is exact. -/
theorem mapT_of_mapNum_eq {mn mx a t : ℤ} (h : mapNum mn mx a = 360 * t) : mapT mn mx a = t := by
  rw [mapT_eq_ediv, h, Int.mul_ediv_cancel_left t (by decide)]

theorem mapNum_reference (a : ℤ) : mapNum 700 2500 a = 360 * (350 + 5 * a) := by
  rw [mapNum_eq]
  ring

theorem mapT_reference (a : ℤ) : mapT 700 2500 a = 350 + 5 * a := mapT_of_mapNum_eq (mapNum_reference a)

/-- Settles O39: the three worked values are the reference calibration's formulas at 0, 180 and 90 degrees. -/
theorem mapWorkedValues : Obligations.MapWorkedValues :=
  ⟨⟨mapNum_reference 0, mapT_reference 0⟩, ⟨mapNum_reference 180, mapT_reference 180⟩,
    ⟨mapNum_reference 90, mapT_reference 90⟩, mapT_reference⟩

end Sys2Proof.Machine
end

section
/-! PROOFS. The host's register accesses (43_host_operations.md R146, R148, R149, R150, R151).

An access to a register that exists is performed at once (`step_hostRead`, `step_hostWrite`), so each statement is what
`regRead` answers or what the one register's write does to the state with the access consumed. -/

namespace Sys2Proof.Machine

/-! ### Reads (R146) -/

/-- The word a read answers, by register number: no register shows X, Y, PC, PIN or the slot (10_state.md R36). -/
theorem regRead_of_number {n : Nat} {r : HostReg} (hr : regOfNumber n = some r) (s : State) :
    (n = 0 → regRead r s = if s.run then 1#32 else 0#32) ∧ (n = 1 → regRead r s = s.pre) ∧
      (n = 2 → regRead r s = s.pwmin) ∧ (n = 3 → regRead r s = s.pwmax) ∧ (n = 4 → regRead r s = 0#32) := by
  refine ⟨?ctrl, ?pre, ?pwmin, ?pwmax, ?angle⟩
  all_goals
    rintro rfl
    cases hr
    rfl

/-- Settles O26: the read is performed on the state with the access consumed, and its word is the register's. -/
theorem hostReadsReturnOnlyTheFourRegisters : Obligations.HostReadsReturnOnlyTheFourRegisters := by
  intro s n rest h hn
  obtain ⟨r, hr⟩ := exists_regOfNumber hn
  exact ⟨_, step_hostRead h hr, regRead_of_number hr { s with inputs := rest }⟩

/-! ### The preload (R148) -/

theorem writePre_stopped (v : Word) {s : State} (h : s.run = false) : writePre v s = { s with pre := v } := by
  simp [writePre, h]

theorem writePre_running (v : Word) {s : State} (h : s.run = true) : writePre v s = s := by
  simp [writePre, h]

/-- Settles O28: RUN decides between the two outcomes of a PRE write. -/
theorem preWriteOnlyWhileStopped : Obligations.PreWriteOnlyWhileStopped := by
  intro s v rest h
  have hstep : step s = .next (writePre v { s with inputs := rest }) := step_hostWrite h rfl
  refine ⟨fun hstopped => hstep.trans ?stopped, fun hrunning => hstep.trans ?running⟩
  case stopped => exact congrArg Host.Outcome.next (writePre_stopped v hstopped)
  case running => exact congrArg Host.Outcome.next (writePre_running v hrunning)

/-! ### The calibration (R149, R150) -/

/-- Settles O29: neither write has a guard, and each sets its one field. -/
theorem calibrationWritesAtAnyTime : Obligations.CalibrationWritesAtAnyTime :=
  fun _ _ _ => ⟨fun hmin => step_hostWrite hmin rfl, fun hmax => step_hostWrite hmax rfl⟩

/-! ### The angle port (R151) -/

/-- The count of an angle, with the mapper's formula written out on the operands an ANGLE write gives it
(42_angle_mapper.md R131). -/
theorem mapAngle_eq_ofInt_floor (pwmin pwmax v : Word) :
    mapAngle pwmin pwmax v = BitVec.ofInt 32
      ⌊((180 * (pwmin.toNat : ℤ) + ((pwmax.toNat : ℤ) - pwmin.toNat) * v.toInt : ℤ) : ℚ) / (180 * 2)⌋ :=
  congrArg (BitVec.ofInt 32) (mapT_eq_floor pwmin.toNat pwmax.toNat v.toInt)

/-- Settles O30: the write is a put, which has no guard, of the mapped count. -/
theorem angleWritePutsTheMappedCount : Obligations.AngleWritePutsTheMappedCount := by
  intro s v rest h
  have hstep : step s = .next (({ s with inputs := rest } : State).slotPut (mapAngle s.pwmin s.pwmax v)) :=
    step_hostWrite h rfl
  rw [hstep, mapAngle_eq_ofInt_floor, State.slotPut]

end Sys2Proof.Machine
end

section
/-! PROOFS. The two causes of reset (70_reset_and_hazards.md R185).

Each cause makes the step the one update `State.resetPseq`, and the reset values are read off that update. -/

namespace Sys2Proof.Machine

/-- The hardware reset input is performed at once. -/
theorem step_rst {s : State} {rest : List Input} (h : s.inputs = .rst :: rest) :
    step s = .next ({ s with inputs := rest } : State).resetPseq := by
  have e : s.nextIs .reset := by simp [State.nextIs, nextInput, h, eventOf]
  rw [step_of_event e, perform, State.consumed, h]
  rfl

/-- A write of CTRL with RST set is a reset, whatever its other bits (43_host_operations.md R147). -/
theorem step_ctrlWrite_rst {s : State} {v : Word} {rest : List Input} (h : s.inputs = .hostWrite 0 v :: rest)
    (hrst : ctrlRstBit v = true) : step s = .next ({ s with inputs := rest } : State).resetPseq := by
  rw [step_hostWrite h (r := .ctrl) rfl, regWrite, writeCtrl_rst v _ hrst]

/-- Both causes have the same effect (70_reset_and_hazards.md R185). -/
theorem step_of_resetCause {s : State} {v : Word} {rest : List Input}
    (h : s.inputs = .rst :: rest ∨ (s.inputs = .hostWrite 0 v :: rest ∧ v.getLsbD 1 = true)) :
    step s = .next ({ s with inputs := rest } : State).resetPseq := by
  rcases h with hinput | ⟨hwrite, hrst⟩
  · exact step_rst hinput
  · exact step_ctrlWrite_rst hwrite hrst

/-- Settles O25: both causes step to `State.resetPseq`, whose fields are the reset values of R38. -/
theorem bothCausesOfResetResetEverything : Obligations.BothCausesOfResetResetEverything := by
  intro s v rest h
  refine ⟨_, step_of_resetCause h, ?_⟩
  simp

end Sys2Proof.Machine
end

section
/-! PROOFS. Words placed in the program store, and what a tick makes of them (20_memory.md R51, R52; 30_encoding.md R77,
R80, R81; 40_sequencer_instructions.md R91, R92).

A store that holds the encodings of well-formed instructions is read back word by word and decodes to them; a store that
holds one reserved word is ill formed, so no fetch from it answers and every tick while running is refused. -/

namespace Sys2Proof.Machine

/-! ### Placing a whole program (O5) -/

/-- Each word of a placed program is read back at its index. -/
theorem Memory.readWord_ofWords {ws : List Byte} {k : Nat} (hk : k < ws.length) (hn : k < Config.nprog) :
    Memory.readWord (Memory.ofWords ws) k = some ws[k] := by
  have hread := Memory.readWord_writeWords ws Memory.wf_nil (a := 0) hk (by omega)
  rwa [Nat.zero_add] at hread

theorem decode_encode {i : Instr} (hi : i.wellFormed = true) : decode (encode i) = .ok i :=
  (decode_eq_ok_iff _ i).2 ⟨rfl, hi⟩

/-- The word at an index of a placed program is the encoding of the instruction of that index. -/
theorem Memory.readWord_ofProgram {p : List Instr} (hlen : p.length = 6) {k : Nat} (hk : k < p.length) :
    Memory.readWord (Memory.ofWords (p.map encode)) k = some (encode p[k]) := by
  have hn : k < Config.nprog := hk.trans_eq hlen
  rw [Memory.readWord_ofWords (by simpa using hk) hn, List.getElem_map]

/-- Six well-formed instructions, encoded and placed, are a well-formed program (30_encoding.md R80). -/
theorem Memory.programWellFormed_ofProgram {p : List Instr} (hlen : p.length = 6)
    (hwf : ∀ i ∈ p, i.wellFormed = true) : Memory.programWellFormed (Memory.ofWords (p.map encode)) = true := by
  rw [Memory.programWellFormed_iff]
  intro k hk
  have hk' : k < p.length := hlen.symm ▸ hk
  have hdec : decode (encode p[k]) = .ok p[k] := decode_encode (hwf _ (List.getElem_mem hk'))
  exact ⟨_, Memory.readWord_ofProgram hlen hk', (isLegalWord_iff _).2 ⟨_, hdec⟩⟩

/-- Settles O5: the word at PC is the encoding of the instruction of that index, and the decoder inverts the encoder. -/
theorem placedProgramIsFetchedBack : Obligations.PlacedProgramIsFetchedBack := by
  intro p hlen hwf
  have hprog := Memory.programWellFormed_ofProgram hlen hwf
  refine ⟨Memory.wf_ofWords _, hprog, fun s k hk hstore hpc => ?_⟩
  have hword : Memory.readWord s.store s.pc.toNat = some (encode p[k]) := by
    rw [hstore, hpc, Memory.readWord_ofProgram hlen hk]
  exact fetchInstr_of_word hword (decode_encode (hwf _ (List.getElem_mem hk))) (hstore ▸ hprog)

/-! ### The legal word a tick runs (O10, O12) -/

theorem wellFormed_of_decode {w : Byte} {i : Instr} (h : decode w = .ok i) : i.wellFormed = true :=
  ((decode_eq_ok_iff w i).1 h).2

/-- Settles O10: the word is fetched, so the tick runs its instruction, which completes. -/
theorem stepRunsTheDecodedInstruction : Obligations.StepRunsTheDecodedInstruction := by
  intro s w i htick hrun hword hdec hprog
  have hstep : step s = exec i s.consumed := step_tick_running htick hrun (fetchInstr_of_word hword hdec hprog)
  exact ⟨wellFormed_of_decode hdec, hstep, _, hstep.trans (exec_eq i s.consumed)⟩

/-- The index PC of a sound state names a word of the store. -/
theorem pc_lt_nprog {s : State} (h : namesWord s.pc = true) : s.pc.toNat < Config.nprog := by
  have hle : s.pc ≤ 5#3 := by simpa [namesWord] using h
  show s.pc.toNat < 6
  bv_omega

/-- The instruction word has 8 bits, so placing it drops none (30_encoding.md R70). -/
theorem State.withFetchWord_eq (s : State) {n : Nat} (hn : n < 256) :
    s.withFetchWord 8 n = { s with
      run := true, inputs := .tick :: s.inputs,
      store := Memory.writeWord s.store s.pc.toNat (BitVec.ofNat 8 n) } := by
  have hmod : n % 2 ^ 8 = n := Nat.mod_eq_of_lt hn
  rw [State.withFetchWord, hmod]

/-- A legal word placed where a sound state fetches is the one fetched. -/
theorem fetchInstr_withFetchWord {s : State} {n : Nat} {i : Instr} (hs : s.Sound) (hn : n < 256)
    (hdec : decode (BitVec.ofNat 8 n) = .ok i) : fetchInstr (s.withFetchWord 8 n) = .ok i := by
  obtain ⟨hpc, hprog, hwf⟩ := hs
  have hlegal : isLegalWord (BitVec.ofNat 8 n) = true := (isLegalWord_iff _).2 ⟨i, hdec⟩
  have hread := Memory.readWord_writeWord_self hwf (pc_lt_nprog hpc) (BitVec.ofNat 8 n)
  rw [State.withFetchWord_eq s hn]
  exact fetchInstr_of_word hread hdec (Memory.programWellFormed_writeWord hwf hprog hlegal)

/-- Settles O12: the placed word is fetched at the tick placed with it. -/
theorem placedWordIsRunNext : Obligations.PlacedWordIsRunNext := by
  intro s n i hs hn hdec
  refine ⟨by simp [decodeTableWord, hdec, Except.toOption], ?_⟩
  rw [step_tick_running rfl rfl (fetchInstr_withFetchWord hs hn hdec), State.withFetchWord_eq s hn]
  rfl

/-! ### Reserved words (O3, O54) -/

theorem Memory.lt_nprog_of_readWord {m : Memory} {a : Nat} {w : Byte} (h : Memory.readWord m a = some w) :
    a < Config.nprog := by
  by_contra hn
  simp [Memory.readWord, hn] at h

/-- One reserved word makes a program ill formed (30_encoding.md R80). -/
theorem Memory.programWellFormed_of_reserved {m : Memory} {a : Nat} {w : Byte} (h : Memory.readWord m a = some w)
    (hw : isLegalWord w = false) : Memory.programWellFormed m = false := by
  rw [← Bool.not_eq_true, Memory.programWellFormed_iff]
  intro hall
  obtain ⟨w', hread, hlegal⟩ := hall a (Memory.lt_nprog_of_readWord h)
  obtain rfl : w = w' := Option.some.inj (h.symm.trans hread)
  rw [hw] at hlegal
  cases hlegal

theorem fetchInstr_of_illFormed {s : State} (h : Memory.programWellFormed s.store = false) :
    ∃ r, fetchInstr s = .error r := by
  cases hf : fetchInstr s with
  | error r => exact ⟨r, rfl⟩
  | ok i =>
    obtain ⟨-, -, -, hp⟩ := fetchInstr_ok hf
    rw [h] at hp
    cases hp

theorem step_of_fetch_error {s : State} {r : Refusal} (htick : s.nextIs .tick) (hrun : s.run = true)
    (hf : fetchInstr s = .error r) : step s = .refused r := by
  rw [step_of_event htick]
  simp [perform, tick, hrun, hf]

/-- Settles O3: the classes are counted over the 256 words; a reserved word anywhere makes the fetch fail. -/
theorem reservedWordsAreRefused : Obligations.ReservedWordsAreRefused := by
  refine ⟨by decide, by decide +kernel, by decide +kernel, by decide +kernel, by decide +kernel, ?_⟩
  intro s a w htick hrun hread hw
  obtain ⟨r, hf⟩ := fetchInstr_of_illFormed (Memory.programWellFormed_of_reserved hread hw)
  exact ⟨r, step_of_fetch_error htick hrun hf⟩

theorem decodeJ_eq_error {w : Byte} (i : PcValue → Instr) (h : targetLegal (aField w) = false) :
    decodeJ i w = .error (.target (aField w)) := by
  simp [decodeJ, h]

/-- A branch to 6 or 7 has the fields of its branch, so the decoder gets as far as the target. -/
theorem decode_encode_illFormedBranch {a : PcValue} (h : targetLegal a = false) :
    decode (encode (.jne a)) = .error (.target a) ∧ decode (encode (.djnz a)) = .error (.target a) := by
  obtain ⟨hop, hz, ha⟩ := encodedFields (.jne a)
  obtain ⟨hop', hz', ha'⟩ := encodedFields (.djnz a)
  constructor
  · rw [decode, if_pos hz, hop]
    exact (decodeJ_eq_error _ (ha.symm ▸ h)).trans (congrArg _ (congrArg _ ha))
  · rw [decode, if_pos hz', hop']
    exact (decodeJ_eq_error _ (ha'.symm ▸ h)).trans (congrArg _ (congrArg _ ha'))

/-- Settles O54: a target above 5 is not legal, so the branch is ill formed and its word reserved. -/
theorem illFormedBranchesEncodeToReservedWords : Obligations.IllFormedBranchesEncodeToReservedWords := by
  refine ⟨encode_branch, fun a ha => ?_⟩
  have hillegal : targetLegal a = false := decide_eq_false (BitVec.not_le.2 ha)
  exact ⟨hillegal, hillegal, decode_encode_illFormedBranch hillegal⟩

/-! ### Fixed words and the reference text (O4, O6) -/

/-- Settles O4: each word is the encoding of the instruction named. -/
theorem writtenWordsDecode : Obligations.WrittenWordsDecode :=
  ⟨decode_encode (i := .clrp) rfl, decode_encode (i := .ldx) rfl, decode_encode (i := .ldy) rfl,
    decode_encode (i := .jne 5) rfl, decode_encode (i := .setp) rfl, decode_encode (i := .djnz 3) rfl,
    decode_encode (i := .jne 0) rfl, decode_encode (i := .djnz 5) rfl⟩

/-- A program text is six lines (30_encoding.md R81). -/
theorem Asm.assemble_of_length_ne {ls : List AsmLine} (h : ls.length ≠ 6) : Asm.assemble ls = none :=
  if_neg fun hall => h hall.1

/-- Settles O6: the six lines are assembled by evaluation. -/
theorem referenceTextAssembles : Obligations.ReferenceTextAssembles :=
  ⟨by decide, fun _ => Asm.assemble_of_length_ne⟩

end Sys2Proof.Machine
end

section
/-! PROOFS. The invariant, the run that never stops, and who writes what (10_state.md R39, R40; 60_exceptions.md R181).

A step is a reset or it is not. A step that resets leads to one state whatever its cause (`step_of_nextResets`); of every
other step, the cases of `step_cases` say which fields it can change: an instruction by `execState_changes`, a register
write by `regWrite_changes`, and nothing else changes any. -/

namespace Sys2Proof.Machine

/-! ### Steps that reset (70_reset_and_hazards.md R185) -/

/-- A register write that counts as a reset is one. -/
theorem regWrite_of_resets {r : HostReg} {v : Word} (s : State) (h : eventResets (.write r v) = true) :
    regWrite r v s = s.resetPseq := by
  obtain ⟨rfl, hrst⟩ : r = .ctrl ∧ ctrlRstBit v = true := by simpa [eventResets] using h
  exact writeCtrl_rst v s hrst

/-- A step that resets, by either cause, leads to the reset state. -/
theorem step_of_nextResets {s t : State} (h : step s = .next t) (hr : s.nextResets = true) :
    t = s.consumed.resetPseq := by
  obtain ⟨e, he, hp⟩ := step_next h
  have hre : eventResets e = true := nextResets_of_nextIs he ▸ hr
  cases e with
  | tick | read r => cases hre
  | reset => cases hp; rfl
  | write r v =>
    cases hp
    exact regWrite_of_resets _ hre

/-! ### The invariant (O19, O20, O24) -/

/-- A well-formed instruction leaves PC in 0 to 5: `next` stays in the ring and its target is legal (R39). -/
theorem namesWord_execState {i : Instr} {s : State} (hi : i.wellFormed = true) (h : namesWord s.pc = true) :
    namesWord (execState i s).pc = true := by
  have hnext := namesWord_nextPc h
  cases i with
  | clrp | ldx | ldy | setp => exact hnext
  | jne a | djnz a =>
    have ha : namesWord a = true := hi
    simp only [execState, State.branch_pc]
    split
    · exact ha
    · exact hnext

theorem wellFormed_of_fetchInstr {s : State} {i : Instr} (h : fetchInstr s = .ok i) : i.wellFormed = true := by
  obtain ⟨w, -, hdec, -⟩ := fetchInstr_ok h
  exact (fields_of_decode hdec).2

theorem step_keeps_namesWord {s t : State} (hpc : namesWord s.pc = true) (h : step s = .next t) :
    namesWord t.pc = true := by
  cases hr : s.nextResets with
  | true => rw [step_of_nextResets h hr]; rfl
  | false =>
    by_cases htick : s.nextIs .tick
    case neg =>
      obtain ⟨-, -, hpct, -⟩ := step_hidden_of_hostAccess h htick hr
      rwa [hpct]
    case pos =>
      rcases tick_next ((step_of_event htick).symm.trans h) with ⟨-, rfl⟩ | ⟨-, i, hi, rfl⟩
      · exact hpc
      · exact namesWord_execState (wellFormed_of_fetchInstr hi) hpc

/-- Settles O19: PC by the cases of a step, the store because no step writes it. -/
theorem everyStepKeepsSoundness : Obligations.EveryStepKeepsSoundness := by
  intro s t hs h
  obtain ⟨hpc, hprog⟩ := hs
  exact ⟨step_keeps_namesWord hpc h, (step_store h).symm ▸ hprog⟩

/-- Settles O20, by evaluation at the one state. -/
theorem resetIsSound : Obligations.ResetIsSound := by
  unfold Obligations.ResetIsSound
  decide

/-- Settles O24: the fields of the one state. -/
theorem resetValues : Obligations.ResetValues := ⟨rfl, rfl, rfl, rfl, rfl, rfl, rfl, rfl, rfl, rfl⟩

/-! ### Progress (O21) -/

theorem legalInput_iff (i : Input) : legalInput i = true ↔ ∃ e, eventOf i = .ok e := by
  unfold legalInput
  cases eventOf i <;> simp

/-- When the pending inputs run out, a tick arrives, which is legal (60_exceptions.md R181). -/
theorem legalInput_nextInput {s : State} (h : ∀ i ∈ s.inputs, legalInput i = true) :
    legalInput (nextInput s) = true := by
  unfold nextInput
  split
  · rfl
  next i rest hin => exact h i (hin ▸ List.mem_cons_self)

/-- From a sound state every event is performed: only a fetch can fail, and here it does not. -/
theorem perform_of_sound {s : State} (hs : s.Sound) (e : Event) : ∃ t, perform e s = .next t := by
  cases e with
  | tick =>
    cases hrun : s.run with
    | false => exact ⟨_, tick_stopped hrun⟩
    | true =>
      obtain ⟨i, hi⟩ := fetchInstr_of_sound hs
      exact ⟨_, tick_running hrun hi⟩
  | reset | read r | write r v => exact ⟨_, rfl⟩

theorem step_of_sound {s : State} (hs : s.Sound) (hlegal : ∀ i ∈ s.inputs, legalInput i = true) :
    ∃ t, step s = .next t := by
  obtain ⟨e, he⟩ := (legalInput_iff _).1 (legalInput_nextInput hlegal)
  have hs' : s.consumed.Sound := hs
  rw [step_of_event he]
  exact perform_of_sound hs' e

/-- Settles O21, by induction on the length of the run, with soundness as the invariant. -/
theorem legalRunNeverStops : Obligations.LegalRunNeverStops := by
  intro k
  induction k with
  | zero => exact fun s hs _ => ⟨s, rfl, hs, rfl⟩
  | succ k ih =>
    intro s hs hlegal
    obtain ⟨u, hu⟩ := step_of_sound hs hlegal
    have hin := step_inputs hu
    have hlegalu : ∀ i ∈ u.inputs, legalInput i = true :=
      fun i hi => hlegal i (List.mem_of_mem_tail (hin ▸ hi))
    obtain ⟨t, hrun, ht, hdrop⟩ := ih u (everyStepKeepsSoundness s u hs hu) hlegalu
    refine ⟨t, (runSteps_succ hu).trans hrun, ht, ?_⟩
    rw [hdrop, hin, List.drop_tail]

/-! ### Write ownership (O22) -/

/-- What each instruction writes of the fields that some instruction writes (10_state.md R40). -/
theorem execState_changes (i : Instr) (s : State) :
    ((execState i s).x ≠ s.x → i = .ldx ∧ s.slotFull = true) ∧
    ((execState i s).y ≠ s.y → i = .ldy ∨ ∃ a, i = .djnz a) ∧
    ((execState i s).slotFull ≠ s.slotFull → (execState i s).slotFull = false ∧ i = .ldx) ∧
    ((execState i s).pin ≠ s.pin →
      (execState i s).pin = false ∧ i = .clrp ∨ (execState i s).pin = true ∧ i = .setp) := by
  cases i with
  | ldx => cases hfull : s.slotFull <;> simp [execState, sampledX, hfull]
  | _ => simp [execState]

/-- What a register write that is no reset writes of the fields the host owns (10_state.md R40). -/
theorem regWrite_changes {r : HostReg} {v : Word} (s : State) (h : eventResets (.write r v) = false) :
    ((regWrite r v s).pre ≠ s.pre → r = .pre ∧ s.run = false) ∧
    ((regWrite r v s).slotVal ≠ s.slotVal → r = .angle) ∧
    ((regWrite r v s).slotFull ≠ s.slotFull → (regWrite r v s).slotFull = true ∧ r = .angle) ∧
    ((regWrite r v s).run ≠ s.run → r = .ctrl) ∧
    ((regWrite r v s).pwmin ≠ s.pwmin → r = .pwmin) ∧
    ((regWrite r v s).pwmax ≠ s.pwmax → r = .pwmax) := by
  cases r with
  | ctrl =>
    have hrst : ctrlRstBit v = false := by simpa [eventResets] using h
    simp [regWrite, writeCtrl_run v s hrst]
  | pre => cases hrun : s.run <;> simp [regWrite, hrun]
  | pwmin | pwmax | angle => simp [regWrite]

/-- Settles O22: the owner of each change, by the cases of a step. -/
theorem stepsWriteOnlyWhatTheyOwn : Obligations.StepsWriteOnlyWhatTheyOwn := by
  intro s t h
  cases hr : s.nextResets with
  | true =>
    obtain rfl := step_of_nextResets h hr
    simp only [true_or, implies_true, true_and]
    exact fun _ => rfl
  | false =>
    simp only [Bool.false_eq_true, false_or, false_implies, and_true]
    rcases step_cases h with ⟨-, -, rfl⟩ | ⟨i, hi, rfl⟩ | ⟨he, -⟩ | ⟨r, -, rfl⟩ | ⟨r, v, he, rfl⟩
    case inl => simp
    case inr.inl =>
      obtain ⟨hx, hy, hfull, hpin⟩ := execState_changes i s.consumed
      obtain ⟨hpre, hval, hrun, hmin, hmax, -⟩ := execState_sequencerFrame i s.consumed
      refine ⟨fun hne => ?x, fun hne => ?y, (absurd hpre ·), (absurd hval ·), fun hne => .inl ?full,
        fun _ => ⟨i, hi⟩, fun hne => ?pin, (absurd hrun ·), (absurd hmin ·), (absurd hmax ·)⟩
      case x => obtain ⟨rfl, hslot⟩ := hx hne; exact ⟨hi, hslot⟩
      case y => rcases hy hne with rfl | ⟨a, rfl⟩; exacts [.inl hi, .inr ⟨a, hi⟩]
      case full => obtain ⟨hclear, rfl⟩ := hfull hne; exact ⟨hclear, hi⟩
      case pin => rcases hpin hne with ⟨hlow, rfl⟩ | ⟨hhigh, rfl⟩; exacts [.inl ⟨hlow, hi⟩, .inr ⟨hhigh, hi⟩]
    case inr.inr.inl => simp [nextResets_of_nextIs he, eventResets] at hr
    case inr.inr.inr.inl => simp
    case inr.inr.inr.inr =>
      have hnr : eventResets (.write r v) = false := nextResets_of_nextIs he ▸ hr
      obtain ⟨hx, hy, hpc, hpin⟩ := regWrite_hidden s.consumed hnr
      obtain ⟨hpre, hval, hfull, hrun, hmin, hmax⟩ := regWrite_changes s.consumed hnr
      refine ⟨(absurd hx ·), (absurd hy ·), fun hne => ?pre, fun hne => ?val, fun hne => .inr ?full,
        (absurd hpc ·), (absurd hpin ·), fun hne => ?run, fun hne => ?min, fun hne => ?max⟩
      case pre => obtain ⟨rfl, hstopped⟩ := hpre hne; exact ⟨hstopped, v, he⟩
      case val => obtain rfl := hval hne; exact ⟨v, he⟩
      case full => obtain ⟨hset, rfl⟩ := hfull hne; exact ⟨hset, v, he⟩
      case run => obtain rfl := hrun hne; exact ⟨v, he⟩
      case min => obtain rfl := hmin hne; exact ⟨v, he⟩
      case max => obtain rfl := hmax hne; exact ⟨v, he⟩

end Sys2Proof.Machine
end

section
/-! PROOFS. What the spec derives of the mapper: the source's formula, the widths and the degenerate calibrations
(42_angle_mapper.md R132, R137, R142). -/

namespace Sys2Proof.Machine

/-! ### The source's formula (R132) -/

/-- Settles O38: over the rationals both are one quotient, and there is one floor. -/
theorem mapAgreesWithTheSourceFormula : Obligations.MapAgreesWithTheSourceFormula := by
  intro mn mx a
  have hquotient : (mapNum mn mx a : ℚ) / (180 * 2) = ((mn : ℚ) + ((mx : ℚ) - mn) / 180 * a) / 2 := by
    rw [mapNum_eq]
    push_cast
    ring
  rw [mapT_eq_floor, hquotient]

/-! ### The widths (R137) -/

/-- A calibration difference of 32-bit words times a signed 32-bit angle. -/
theorem abs_calibration_mul_angle_le (pwmin pwmax v : Word) :
    |((pwmax.toNat : ℤ) - pwmin.toNat) * v.toInt| ≤ 2 ^ 32 * 2 ^ 31 := by
  have hmin : pwmin.toNat < 2 ^ 32 := pwmin.isLt
  have hmax : pwmax.toNat < 2 ^ 32 := pwmax.isLt
  have hdiff : |(pwmax.toNat : ℤ) - pwmin.toNat| ≤ 2 ^ 32 := abs_le.2 ⟨by omega, by omega⟩
  have hangle : |v.toInt| ≤ 2 ^ 31 := abs_le.2 ⟨BitVec.le_toInt v, (BitVec.toInt_lt (x := v)).le⟩
  rw [abs_mul]
  exact mul_le_mul hdiff hangle (abs_nonneg _) (by positivity)

/-- Settles O40: the product is the wide term of the numerator, and the quotient is 360 times narrower. -/
theorem mapIntermediatesFit : Obligations.MapIntermediatesFit := by
  intro pwmin pwmax v
  have hmin : pwmin.toNat < 2 ^ 32 := pwmin.isLt
  obtain ⟨hlow, hhigh⟩ := abs_le.1 (abs_calibration_mul_angle_le pwmin pwmax v)
  rw [mapT_eq_ediv, mapNum_eq, abs_lt, abs_lt]
  omega

/-! ### Degenerate calibrations (R142) -/

theorem mapT_equal_calibration (mn a : ℤ) : mapT mn mn a = ⌊(mn : ℚ) / 2⌋ := by
  have hquotient : (mapNum mn mn a : ℚ) / (180 * 2) = (mn : ℚ) / 2 := by
    rw [mapNum_eq]
    push_cast
    ring
  rw [mapT_eq_floor, hquotient]

/-- A falling calibration gives a falling numerator, and the floor keeps the order. -/
theorem mapT_antitone {mn mx : ℤ} (h : mx ≤ mn) : Antitone (mapT mn mx) := by
  intro a b hab
  have hprod : (mx - mn) * b ≤ (mx - mn) * a := mul_le_mul_of_nonpos_left hab (sub_nonpos.2 h)
  rw [mapT_eq_ediv, mapT_eq_ediv, mapNum_eq, mapNum_eq]
  omega

theorem mapT_identity (a : ℤ) : mapT 0 360 a = a := mapT_of_mapNum_eq (by rw [mapNum_eq]; ring)

/-- With the identity calibration the count is the angle word itself, for every word. -/
theorem mapAngle_identity (v : Word) : mapAngle 0#32 360#32 v = v :=
  (congrArg (BitVec.ofInt 32) (mapT_identity v.toInt)).trans (BitVec.ofInt_toInt)

/-- Settles O41, one calibration at a time. -/
theorem mapDegenerateCalibrations : Obligations.MapDegenerateCalibrations :=
  ⟨mapT_equal_calibration, fun _ _ _ _ h hab => mapT_antitone h.le hab, mapT_identity,
    fun v _ => mapAngle_identity v⟩

end Sys2Proof.Machine
end

section
/-! PROOFS. Host accesses and the host's operations (20_memory.md R55, R60, R61, R63; 43_host_operations.md R147 and
section 2).

Each operation is a list of inputs, so its effect is computed along the list: `step_hostWrite` performs the write at the
head, and `runSteps_ticks_stopped` passes over the ticks of a stopped machine. -/

namespace Sys2Proof.Machine

/-! ### A state with other inputs ahead -/

/-- The same machine, reached by other steps of the environment and the host. -/
def State.withInputs (s : State) (l : List Input) : State := { s with inputs := l }

theorem State.consumed_eq_withInputs (s : State) : s.consumed = s.withInputs s.inputs.tail := rfl

/-! ### Single accesses (O27, O33) -/

/-- A write of CTRL without RST sets RUN to bit 0 and nothing else (43_host_operations.md R147). -/
theorem step_ctrlWrite_run {s : State} {v : Word} {rest : List Input} (h : s.inputs = .hostWrite 0 v :: rest)
    (hrst : ctrlRstBit v = false) : step s = .next { s with run := ctrlRunBit v, inputs := rest } := by
  rw [step_hostWrite h (r := .ctrl) rfl, regWrite, writeCtrl_run v _ hrst]

/-- Settles O27: bit 1 decides between the two updates a CTRL write can be. -/
theorem ctrlWriteResetsOrSetsRun : Obligations.CtrlWriteResetsOrSetsRun :=
  fun _ _ _ h => ⟨step_ctrlWrite_rst h, step_ctrlWrite_run h⟩

/-- Settles O33: an access that names a register has none of the three faults. -/
theorem otherBusAccessesAreRefused : Obligations.OtherBusAccessesAreRefused := by
  intro s a rest hin hfault
  cases hb : busRegister a with
  | error e => exact ⟨e, step_refused hin (by simp [eventOf, hb])⟩
  | ok r =>
    obtain ⟨hbytes, haligned, hbase, -⟩ := busRegister_ok hb
    omega

/-! ### Repeated writes (O34) -/

/-- Registers 1 to 4 are written from what no write of the same register changes (20_memory.md R63). -/
theorem regWrite_regWrite {r : HostReg} (hr : r ≠ .ctrl) (v : Word) (s : State) :
    regWrite r v (regWrite r v s) = regWrite r v s := by
  cases r with
  | ctrl => exact absurd rfl hr
  | pre => cases hrun : s.run <;> simp [regWrite, writePre, hrun]
  | pwmin | pwmax | angle => rfl

/-- What a register write does is independent of the inputs that follow it. -/
theorem regWrite_withInputs (r : HostReg) (v : Word) (s : State) (l : List Input) :
    regWrite r v (s.withInputs l) = (regWrite r v s).withInputs l := by
  cases r with
  | ctrl => cases hrst : ctrlRstBit v <;> simp [regWrite, writeCtrl, hrst, State.resetPseq, State.withInputs]
  | pre => cases hrun : s.run <;> simp [regWrite, writePre, hrun, State.withInputs]
  | pwmin | pwmax | angle => rfl

theorem step_withInputs_hostWrite {n : Nat} {r : HostReg} (hr : regOfNumber n = some r) (v : Word) (s : State)
    (l : List Input) : step (s.withInputs (.hostWrite n v :: l)) = .next ((regWrite r v s).withInputs l) :=
  (step_hostWrite rfl hr).trans (congrArg _ (regWrite_withInputs r v s l))

theorem regOfNumber_ne_ctrl {n : Nat} {r : HostReg} (h : regOfNumber n = some r) (hn : 1 ≤ n) : r ≠ .ctrl := by
  rintro rfl
  unfold regOfNumber at h
  split at h <;> simp_all

/-- Settles O34: the second write is performed on what the first left, and finds its own result there. -/
theorem repeatedWritesAreIdempotent : Obligations.RepeatedWritesAreIdempotent := by
  intro s n v rest hpos hn
  obtain ⟨r, hr⟩ := exists_regOfNumber hn
  have hfirst (l : List Input) := step_withInputs_hostWrite hr v s l
  have hsecond := step_withInputs_hostWrite hr v (regWrite r v s) rest
  rw [regWrite_regWrite (regOfNumber_ne_ctrl hr hpos)] at hsecond
  exact ⟨_, hfirst rest, (runSteps_succ (hfirst _)).trans (runSteps_succ hsecond)⟩

/-! ### A put and a take that coincide (O36) -/

theorem step_angleWrite {s : State} {v : Word} {rest : List Input} (h : s.inputs = .hostWrite 4 v :: rest) :
    step s = .next (writeAngle v { s with inputs := rest }) := step_hostWrite h rfl

/-- A tick that heads the inputs runs the fetched instruction. -/
theorem step_tick_cons {s : State} {i : Instr} {rest : List Input} (h : s.inputs = .tick :: rest)
    (hrun : s.run = true) (hfetch : fetchInstr s = .ok i) :
    step s = .next (execState i { s with inputs := rest }) := by
  have htick : s.nextIs .tick := by simp [State.nextIs, nextInput, h, eventOf]
  rw [step_of_nextRuns ⟨htick, hrun, hfetch⟩, State.consumed, h]
  rfl

/-- Settles O36: each order is two steps, the second on what the first left. -/
theorem putAndTakeInEitherOrder : Obligations.PutAndTakeInEitherOrder := by
  intro s v rest hrun hfetch
  constructor
  · intro h
    have hput := step_angleWrite h
    have htake : step (writeAngle v { s with inputs := .tick :: rest }) = _ := step_tick_cons rfl hrun hfetch
    exact ⟨_, (runSteps_succ hput).trans (runSteps_succ htake), rfl, rfl, rfl, rfl⟩
  · intro h
    have htake := step_tick_cons h hrun hfetch
    have hput : step (execState .ldx { s with inputs := .hostWrite 4 v :: rest }) = _ := step_angleWrite rfl
    exact ⟨_, (runSteps_succ htake).trans (runSteps_succ hput), rfl, rfl, rfl, rfl⟩

/-! ### The sequences that configure the block and set an angle (O42, O43) -/

/-- Settles O42: the reset leaves no remnant, and RUN is still 0 when PRE is written. -/
theorem initializeFromAnyState : Obligations.InitializeFromAnyState := by
  intro s periodTicks mn mx rest h
  rw [runSteps_succ (step_ctrlWrite_rst h (by decide)), runSteps_succ (step_hostWrite rfl rfl),
    regWrite, writePre_stopped _ rfl, runSteps_succ (step_hostWrite rfl rfl), runSteps_succ (step_hostWrite rfl rfl),
    runSteps_succ (step_ctrlWrite_run rfl (by decide))]
  rfl

/-- The ANGLE port's word of an integer in its range reads back as that integer (43_host_operations.md R157). -/
theorem toInt_ofInt_of_range {d : ℤ} (hlow : -2 ^ 31 ≤ d) (hhigh : d < 2 ^ 31) : (BitVec.ofInt 32 d).toInt = d := by
  rw [BitVec.toInt_ofInt, Int.bmod_eq_of_le] <;> omega

/-- Settles O43: `setAngle` is one ANGLE write, and its word stands for the angle. -/
theorem setAngleIsOneStep : Obligations.SetAngleIsOneStep := by
  intro s d rest hlow hhigh h
  rw [step_angleWrite h, writeAngle, State.slotPut, mapAngle, toInt_ofInt_of_range hlow hhigh]
  rfl

/-! ### stop and start (O44, O45) -/

theorem step_start {s : State} {rest : List Input} (h : s.inputs = Driver.start ++ rest) :
    step s = .next { s with run := true, inputs := rest } := step_ctrlWrite_run h (by decide)

theorem step_stop {s : State} {rest : List Input} (h : s.inputs = Driver.stop ++ rest) :
    step s = .next { s with run := false, inputs := rest } := step_ctrlWrite_run h (by decide)

/-- Any number of ticks passes over a stopped machine. -/
theorem runSteps_ticks_stopped {k : Nat} {s : State} {rest : List Input} (hrun : s.run = false)
    (h : s.inputs = List.replicate k .tick ++ rest) : runSteps k s = .next { s with inputs := rest } := by
  induction k generalizing s with
  | zero =>
    obtain rfl : s.inputs = rest := h
    rfl
  | succ k ih =>
    rw [List.replicate_succ, List.cons_append] at h
    have htick : s.nextIs .tick := by simp [State.nextIs, nextInput, h, eventOf]
    rw [runSteps_succ (step_tick_stopped htick hrun)]
    exact ih (s := s.consumed) hrun (by simp [h])

/-- A stop and any number of ticks after it clear RUN and do nothing else. -/
theorem runSteps_stop_ticks {k : Nat} {s : State} {rest : List Input}
    (h : s.inputs = Driver.stop ++ List.replicate k .tick ++ rest) :
    runSteps (k + 1) s = .next { s with run := false, inputs := rest } := by
  rw [List.append_assoc] at h
  rw [runSteps_succ (step_stop h)]
  exact runSteps_ticks_stopped rfl rfl

/-- Settles O44: the machine is stopped when the ticks and the PRE write arrive. -/
theorem stopFreezesEverything : Obligations.StopFreezesEverything := by
  intro s k v rest
  refine ⟨runSteps_stop_ticks, fun h => ?_⟩
  rw [show k + 2 = k + 1 + 1 from rfl, runSteps_add (runSteps_stop_ticks h),
    runSteps_succ (step_hostWrite rfl rfl), regWrite, writePre_stopped _ rfl]
  rfl

/-- Settles O45: the stop and the start cancel, and the next tick fetches what was fetched before. -/
theorem stopThenStartResumes : Obligations.StopThenStartResumes := by
  intro s k i rest hrun hfetch h
  rw [List.append_assoc _ Driver.start] at h
  have hresumed : runSteps (k + 2) s = .next { s with inputs := .tick :: rest } := by
    rw [show k + 2 = k + 1 + 1 from rfl, runSteps_add (runSteps_stop_ticks h), runSteps_succ (step_start rfl), ← hrun]
    rfl
  have htick : step { s with inputs := .tick :: rest } = .next (execState i { s with inputs := rest }) :=
    step_tick_cons rfl hrun hfetch
  refine ⟨hresumed, ?_⟩
  rw [show k + 3 = k + 2 + 1 from rfl, runSteps_add hresumed, runSteps_succ htick, exec_eq]
  rfl

end Sys2Proof.Machine
end

section
/-! PROOFS. When a period has a match, and how long it is (41_reference_program.md R115, R116, R118, R126).

The two counts of a period, its iterations N and its match iteration kstar, are functions of the word in Y and of X, so
they also speak of the rest of a period from any iteration on: one iteration later Y is one less, N is one less, and so is
kstar unless the match was in that iteration. -/

namespace Sys2Proof.Machine

theorem hasMatch_iff (y x : Word) : hasMatch y x = true ↔ matchIteration y x < periodIterations y := decide_eq_true_iff

theorem hasMatch_eq_false_iff (y x : Word) : hasMatch y x = false ↔ periodIterations y ≤ matchIteration y x := by
  rw [← Bool.not_eq_true, hasMatch_iff, not_lt]

/-! ### The match conditions (O47) -/

theorem periodIterations_of_pos {p : Word} (h : 1 ≤ p.toNat) : periodIterations p = p.toNat :=
  if_neg fun hzero => by simp [hzero] at h

/-- For a preload of at least 1 the match is the count X, if it fits the period (R116). -/
theorem hasMatch_iff_of_pos {p x : Word} (h : 1 ≤ p.toNat) : hasMatch p x = true ↔ 1 ≤ x.toNat ∧ x.toNat ≤ p.toNat := by
  rw [hasMatch_iff, periodIterations_of_pos h, matchIteration]
  bv_omega

theorem matchIteration_of_le {p x : Word} (h : x.toNat ≤ p.toNat) : matchIteration p x = p.toNat - x.toNat := by
  rw [matchIteration]
  bv_omega

/-- The preload 0 gives all 2^32 iterations, and Y takes every value in one of them (R116). -/
theorem hasMatch_zero (x : Word) : hasMatch 0#32 x = true := (hasMatch_iff _ _).2 (0#32 - x).isLt

/-- Settles O47, by the arithmetic of the wrapped difference. -/
theorem matchConditions : Obligations.MatchConditions :=
  ⟨fun _ _ hp => ⟨hasMatch_iff_of_pos hp, fun hm => matchIteration_of_le ((hasMatch_iff_of_pos hp).1 hm).2⟩,
    hasMatch_zero⟩

/-! ### The reference numbers (O52) -/

theorem periodLength_of_match {p x : Word} (h : hasMatch p x = true) :
    periodLength p x = 2 * periodIterations p + 4 := if_pos h

theorem periodLength_of_noMatch {p x : Word} (h : hasMatch p x = false) :
    periodLength p x = 2 * periodIterations p + 3 := if_neg (by simp [h])

/-- Settles O52: a period with a match is twice the preload and 4 ticks, which the formula of R126 inverts. -/
theorem referencePeriods : Obligations.ReferencePeriods := by
  refine ⟨by decide, by decide, by decide, by decide, by decide, fun p x hp hm => ?_⟩
  have hhalf : (2 * p.toNat + 4) / 2 - 2 = p.toNat := by omega
  rw [periodLength_of_match hm, periodIterations_of_pos hp, Driver.preloadFor, hhalf, BitVec.ofNat_toNat,
    BitVec.setWidth_eq]

/-! ### One iteration later -/

theorem periodIterations_one : periodIterations 1#32 = 1 := by decide

theorem periodIterations_decremented {y : Word} (h : y ≠ 1#32) :
    periodIterations y = periodIterations (decremented y) + 1 := by
  have hne : decremented y ≠ 0#32 := by
    unfold decremented
    bv_omega
  rw [periodIterations, periodIterations, if_neg hne]
  by_cases hzero : y = 0#32
  · subst hzero
    rfl
  · rw [if_neg hzero, decremented]
    bv_omega

theorem matchIteration_self (y : Word) : matchIteration y y = 0 := by simp [matchIteration]

/-- A loop runs at least once, so a Y equal to X is met at once. -/
theorem periodIterations_pos (y : Word) : 0 < periodIterations y := by
  by_cases hone : y = 1#32
  · simp [hone, periodIterations_one]
  · simp [periodIterations_decremented hone]

theorem ne_of_noMatch {y x : Word} (h : hasMatch y x = false) : x ≠ y := by
  rintro rfl
  rw [hasMatch_eq_false_iff, matchIteration_self] at h
  exact absurd h (periodIterations_pos x).not_ge

theorem matchIteration_decremented {y x : Word} (h : x ≠ y) :
    matchIteration y x = matchIteration (decremented y) x + 1 := by
  unfold matchIteration decremented
  bv_omega

/-- The last iteration has the match exactly when X is 1. -/
theorem hasMatch_one {x : Word} (h : x ≠ 1#32) : hasMatch 1#32 x = false := by
  rw [hasMatch_eq_false_iff, periodIterations_one, matchIteration_decremented h]
  omega

/-- A match that is not in this iteration is in a later one, or in none. -/
theorem hasMatch_decremented {y x : Word} (hx : x ≠ y) (hy : y ≠ 1#32) : hasMatch (decremented y) x = hasMatch y x := by
  rw [Bool.eq_iff_iff, hasMatch_iff, hasMatch_iff, periodIterations_decremented hy, matchIteration_decremented hx]
  omega

/-- A period has one match at most: after the iteration with the match there is none. -/
theorem hasMatch_after_match {y : Word} (hy : y ≠ 1#32) : hasMatch (decremented y) y = false := by
  have hwrap : matchIteration (decremented y) y = 2 ^ 32 - 1 := by
    unfold matchIteration decremented
    bv_omega
  have hle : periodIterations (decremented y) ≤ 2 ^ 32 - 1 := by
    rw [periodIterations_of_pos] <;> (unfold decremented; bv_omega)
  rw [hasMatch_eq_false_iff, hwrap]
  exact hle

end Sys2Proof.Machine
end

section
/-! PROOFS. The waveform of the reference program (41_reference_program.md R114 to R124, R127).

The run is cut into phases. `Phase p s l t` says that from `s` the machine comes to `t` with the pin trace `l`, each state
on the way meeting `p`; phases compose (`Phase.append`). A tick is a phase, so is a loop iteration with or without the
match, and so, by induction on the iterations left, is the rest of the loop. The statements are read off the phase of a
whole period. -/

namespace Sys2Proof.Machine

/-! ### A machine that runs the reference program, the host silent -/

/-- RUN = 1, only ticks ahead, and the store as configured. -/
structure State.OnReference (s : State) : Prop where
  running : s.run = true
  onlyTicks : s.inputs = []
  reference : s.store = []

theorem State.OnReference.nextIs_tick {s : State} (hs : s.OnReference) : s.nextIs .tick := by
  simp [State.nextIs, nextInput, hs.onlyTicks, eventOf]

theorem State.OnReference.consumed_eq {s : State} (hs : s.OnReference) : s.consumed = s := by
  rw [State.consumed_eq_withInputs, hs.onlyTicks, List.tail_nil, State.withInputs, ← hs.onlyTicks]

/-- No instruction writes RUN, the inputs or the store. -/
theorem State.OnReference.keeps_execState {s : State} (hs : s.OnReference) (i : Instr) :
    (execState i s).OnReference := by
  obtain ⟨-, -, hrun, -, -, hin, -, hstore, -⟩ := execState_sequencerFrame i s
  exact ⟨hrun.trans hs.running, hin.trans hs.onlyTicks, hstore.trans hs.reference⟩

theorem State.OnReference.step_eq {s : State} (hs : s.OnReference) {i : Instr} (hi : fetchInstr s = .ok i) :
    step s = .next (execState i s) := by
  rw [step_of_nextRuns ⟨hs.nextIs_tick, hs.running, hi⟩, hs.consumed_eq]

/-- Every step of such a machine runs an instruction. -/
theorem State.OnReference.step_inv {s t : State} (hs : s.OnReference) (h : step s = .next t) :
    ∃ i, fetchInstr s = .ok i ∧ t = execState i s := by
  rw [step_of_event hs.nextIs_tick, hs.consumed_eq] at h
  rcases tick_next h with ⟨hstopped, -⟩ | ⟨-, hinstr⟩
  · rw [hs.running] at hstopped
    cases hstopped
  · exact hinstr

theorem State.OnReference.keeps_step {s t : State} (hs : s.OnReference) (h : step s = .next t) : t.OnReference := by
  obtain ⟨i, -, rfl⟩ := hs.step_inv h
  exact hs.keeps_execState i

/-- The instruction fetched is that of the configured program at PC. -/
theorem State.OnReference.fetchInstr_eq {s : State} (hs : s.OnReference) {p : PcValue} {i : Instr} (hpc : s.pc = p)
    (hi : fetchInstr { State.reset with pc := p } = .ok i) : fetchInstr s = .ok i :=
  (fetchInstr_congr hs.reference hpc).trans hi

/-! ### Conditions along a run -/

theorem holdsAlong_succ {p : State → Bool} {k : Nat} {s : State} (h : holdsAlong p (k + 1) s = true) :
    p s = true ∧ ∃ t, step s = .next t ∧ holdsAlong p k t = true := by
  cases hs : step s with
  | next t =>
    obtain ⟨hp, ht⟩ := holdsAlong_of_step h hs
    exact ⟨hp, t, rfl, ht⟩
  | fault r => cases r
  | refused r => simp [holdsAlong, hs] at h

/-- A run whose steps are all performed reaches each state on its way, from which the condition holds for the rest. -/
theorem holdsAlong_reaches {p : State → Bool} {j k : Nat} {s : State} (h : holdsAlong p (j + k) s = true) :
    ∃ t, runSteps j s = .next t ∧ holdsAlong p k t = true := by
  induction j generalizing s with
  | zero => exact ⟨s, rfl, by rwa [Nat.zero_add] at h⟩
  | succ j ih =>
    rw [Nat.succ_add] at h
    obtain ⟨-, u, hu, hau⟩ := holdsAlong_succ h
    obtain ⟨t, ht, hk⟩ := ih hau
    exact ⟨t, (runSteps_succ hu).trans ht, hk⟩

theorem holdsAlong_add {p : State → Bool} {j k : Nat} {s t : State} (h : runSteps j s = .next t) :
    holdsAlong p (j + k) s = (holdsAlong p j s && holdsAlong p k t) := by
  induction j generalizing s with
  | zero => cases h; simp [holdsAlong]
  | succ j ih =>
    obtain ⟨u, hu, hrest⟩ := runSteps_succ_next h
    simp [Nat.succ_add, holdsAlong, hu, ih hrest, Bool.and_assoc]

theorem holdsAlong_mono {p q : State → Bool} (hpq : ∀ s, p s = true → q s = true) {k : Nat} {s : State}
    (h : holdsAlong p k s = true) : holdsAlong q k s = true := by
  induction k generalizing s with
  | zero => rfl
  | succ k ih =>
    obtain ⟨hp, t, ht, hat⟩ := holdsAlong_succ h
    simp [holdsAlong, hpq s hp, ht, ih hat]

/-! ### Steps in the pin trace (00_scope.md R11) -/

/-- A tick while running puts the level of the line after it in the trace. -/
theorem pinTrace_succ_of_tick {k : Nat} {s t : State} (h : step s = .next t) (hrun : s.run = true)
    (htick : s.nextIs .tick) : pinTrace (k + 1) s = t.pin :: pinTrace k t := by
  simp only [pinTrace, h]
  exact if_pos ⟨hrun, htick⟩

/-- A step that is no tick puts nothing there. -/
theorem pinTrace_succ_of_not_tick {k : Nat} {s t : State} (h : step s = .next t) (hnt : ¬ s.nextIs .tick) :
    pinTrace (k + 1) s = pinTrace k t := by
  simp only [pinTrace, h]
  exact if_neg fun hcond => hnt hcond.2

/-! ### Phases -/

/-- From `s` the machine comes to `t` in as many steps as `l` is long, with the pin trace `l`, and every state it steps
from meets `p`. -/
structure Phase (p : State → Bool) (s : State) (l : List Bool) (t : State) : Prop where
  run : runSteps l.length s = .next t
  trace : pinTrace l.length s = l
  along : holdsAlong p l.length s = true

theorem Phase.append {p : State → Bool} {s t u : State} {l m : List Bool} (h : Phase p s l t) (h' : Phase p t m u) :
    Phase p s (l ++ m) u where
  run := by rw [List.length_append, runSteps_add h.run, h'.run]
  trace := by rw [List.length_append, pinTrace_add h.run, h.trace, h'.trace]
  along := by rw [List.length_append, holdsAlong_add h.run, h.along, h'.along]; rfl

theorem Phase.mono {p q : State → Bool} (hpq : ∀ s, p s = true → q s = true) {s t : State} {l : List Bool}
    (h : Phase p s l t) : Phase q s l t :=
  ⟨h.run, h.trace, holdsAlong_mono hpq h.along⟩

/-- One tick: the fetched instruction, and the level of the line after it. -/
theorem State.OnReference.phase {s : State} (hs : s.OnReference) {p : State → Bool} {i : Instr}
    (hi : fetchInstr s = .ok i) (hp : p s = true) : Phase p s [(execState i s).pin] (execState i s) where
  run := runSteps_succ (hs.step_eq hi)
  trace := pinTrace_succ_of_tick (hs.step_eq hi) hs.running hs.nextIs_tick
  along := by simp [holdsAlong, hp, hs.step_eq hi]

/-! ### One loop iteration (O46) -/

/-- PC is past the `LDX` of the period: at the `LDY` or in the loop. -/
def pastSampling (s : State) : Bool := decide (2#3 ≤ s.pc)

/-- The state a `DJNZ` of the loop leaves: Y one less, and PC at the top of the loop, or at the next period when the new Y
is 0. -/
def State.iterated (s : State) : State := { s with y := decremented s.y, pc := if s.y = 1#32 then 0#3 else 3#3 }

theorem djnzTaken_decremented (y : Word) : djnzTaken (decremented y) = !decide (y = 1#32) := by
  have hzero : decremented y = 0#32 ↔ y = 1#32 := by
    unfold decremented
    bv_omega
  simp [djnzTaken, hzero]

/-- The `DJNZ` at the end of the loop, which leaves the line alone. -/
theorem State.OnReference.phase_djnz {s : State} (hs : s.OnReference) (hpc : s.pc = 5#3) :
    Phase pastSampling s [s.pin] s.iterated := by
  have hafter : execState (.djnz 3#3) s = s.iterated := by
    have hnext : nextPc s.pc = 0#3 := hpc ▸ nextPc_of_le (p := 5#3) (by decide)
    by_cases hy : s.y = 1#32 <;>
      simp [execState, djnzTaken_decremented, hy, State.branch, State.advance, State.goto, State.setY,
        State.iterated, hnext]
  have htick := hs.phase (p := pastSampling) (hs.fetchInstr_eq hpc (i := .djnz 3#3) rfl) (by simp [pastSampling, hpc])
  rwa [hafter] at htick

/-- An iteration without the match: two ticks, the line as it was (R115). -/
theorem State.OnReference.phase_skip {s : State} (hs : s.OnReference) (hpc : s.pc = 3#3) (hne : s.x ≠ s.y) :
    Phase pastSampling s [s.pin, s.pin] s.iterated := by
  have hjump : execState (.jne 5#3) s = s.goto 5#3 := by
    simp [execState, (jneTaken_iff _ _).2 hne, State.branch]
  have hjne := hs.phase (p := pastSampling) (hs.fetchInstr_eq hpc (i := .jne 5#3) rfl) (by simp [pastSampling, hpc])
  have hat5 := hs.keeps_execState (.jne 5#3)
  rw [hjump] at hjne hat5
  exact hjne.append (hat5.phase_djnz rfl)

/-- The iteration with the match: three ticks, the line high from the second on (R115). -/
theorem State.OnReference.phase_match {s : State} (hs : s.OnReference) (hpc : s.pc = 3#3) (heq : s.x = s.y) :
    Phase pastSampling s [s.pin, true, true] (s.setPin true).iterated := by
  have hnext3 : nextPc 3#3 = 4#3 := nextPc_of_le (p := 3#3) (by decide)
  have hnext4 : nextPc 4#3 = 5#3 := nextPc_of_le (p := 4#3) (by decide)
  have hfall : execState (.jne 5#3) s = s.goto 4#3 := by
    simp [execState, jneTaken, heq, State.branch, State.advance, hpc, hnext3]
  have hraise : execState .setp (s.goto 4#3) = (s.setPin true).goto 5#3 := by
    simp [execState, State.advance, hnext4, State.setPin, State.goto]
  have hjne := hs.phase (p := pastSampling) (hs.fetchInstr_eq hpc (i := .jne 5#3) rfl) (by simp [pastSampling, hpc])
  have hat4 := hs.keeps_execState (.jne 5#3)
  rw [hfall] at hjne hat4
  have hsetp := hat4.phase (p := pastSampling) (hat4.fetchInstr_eq rfl (i := .setp) rfl) rfl
  have hat5 := hat4.keeps_execState .setp
  rw [hraise] at hsetp hat5
  exact (hjne.append hsetp).append (hat5.phase_djnz rfl)

/-- Settles O46: the run of each of the two phases. -/
theorem loopIterationTakesTwoOrThreeTicks : Obligations.LoopIterationTakesTwoOrThreeTicks := by
  intro s hrun hpc hin hstore
  have hs : s.OnReference := ⟨hrun, hin, hstore⟩
  exact ⟨fun hne => (hs.phase_skip hpc hne).run, fun heq => (hs.phase_match hpc heq).run⟩

/-! ### The rest of the loop -/

/-- The state in which the loop is left. -/
def State.loopLeft (s : State) : State := { s with y := 0#32, pc := 0#3 }

theorem State.iterated_of_one {s : State} (h : s.y = 1#32) : s.iterated = s.loopLeft := by
  simp [State.iterated, State.loopLeft, h, decremented]

theorem State.iterated_pc {s : State} (h : s.y ≠ 1#32) : s.iterated.pc = 3#3 := if_neg h

/-- An iteration after which the loop goes on ends at the top of the loop. -/
theorem State.OnReference.iterated {s : State} (hs : s.OnReference) : s.iterated.OnReference :=
  ⟨hs.running, hs.onlyTicks, hs.reference⟩

theorem State.OnReference.setPin {s : State} (hs : s.OnReference) (b : Bool) : (s.setPin b).OnReference :=
  ⟨hs.running, hs.onlyTicks, hs.reference⟩

/-- Two ticks more of one level at the front of a trace. -/
theorem replicate_two_mul_succ (n : Nat) (b : Bool) :
    List.replicate (2 * (n + 1)) b = [b, b] ++ List.replicate (2 * n) b := rfl

/-- The rest of a loop with no match ahead: the line stays as it is (R120). -/
theorem State.OnReference.phase_quietLoop {n : Nat} {s : State} (hs : s.OnReference) (hpc : s.pc = 3#3)
    (hn : periodIterations s.y = n) (hm : hasMatch s.y s.x = false) :
    Phase pastSampling s (List.replicate (2 * n) s.pin) s.loopLeft := by
  induction n generalizing s with
  | zero => exact absurd hn (periodIterations_pos _).ne'
  | succ n ih =>
    have hne : s.x ≠ s.y := ne_of_noMatch hm
    have hskip := hs.phase_skip hpc hne
    by_cases hone : s.y = 1#32
    · obtain rfl : n = 0 := by simpa [hone, periodIterations_one] using hn
      exact State.iterated_of_one hone ▸ hskip
    · rw [periodIterations_decremented hone] at hn
      have hm' : hasMatch s.iterated.y s.iterated.x = false := (hasMatch_decremented hne hone).trans hm
      rw [replicate_two_mul_succ]
      exact hskip.append (ih hs.iterated (State.iterated_pc hone) (Nat.succ.inj hn) hm')

/-- The rest of a loop from the iteration of the match on: the line is high from the second tick on (R117). -/
theorem State.OnReference.phase_matchLoop {s : State} (hs : s.OnReference) (hpc : s.pc = 3#3) (heq : s.x = s.y) :
    Phase pastSampling s (s.pin :: List.replicate (2 * periodIterations s.y) true) (s.setPin true).loopLeft := by
  have hmatch := hs.phase_match hpc heq
  by_cases hone : s.y = 1#32
  · have hlast : (s.setPin true).iterated = (s.setPin true).loopLeft := State.iterated_of_one hone
    rw [hlast] at hmatch
    rw [hone, periodIterations_one]
    exact hmatch
  · have hm : hasMatch (s.setPin true).iterated.y (s.setPin true).iterated.x = false := by
      show hasMatch (decremented s.y) s.x = false
      rw [heq]
      exact hasMatch_after_match hone
    have hrest := (hs.setPin true).iterated.phase_quietLoop (State.iterated_pc hone) rfl hm
    rw [periodIterations_decremented hone]
    exact hmatch.append hrest

/-- The rest of a loop with a match ahead: the line stays as it is up to the match (R117, R119). -/
theorem State.OnReference.phase_pulseLoop {k : Nat} {s : State} (hs : s.OnReference) (hpc : s.pc = 3#3)
    (hk : matchIteration s.y s.x = k) (hm : hasMatch s.y s.x = true) :
    Phase pastSampling s
      (List.replicate (2 * k) s.pin ++ s.pin :: List.replicate (2 * (periodIterations s.y - k)) true)
      (s.setPin true).loopLeft := by
  induction k generalizing s with
  | zero =>
    have heq : s.x = s.y := by
      unfold matchIteration at hk
      bv_omega
    exact hs.phase_matchLoop hpc heq
  | succ k ih =>
    have hne : s.x ≠ s.y := by
      intro heq
      rw [heq, matchIteration_self] at hk
      omega
    have hone : s.y ≠ 1#32 := by
      intro hone
      rw [hone] at hm hne
      rw [hasMatch_one hne] at hm
      cases hm
    have hk' : matchIteration s.iterated.y s.iterated.x = k := by
      rw [matchIteration_decremented hne] at hk
      exact Nat.succ.inj hk
    have hm' : hasMatch s.iterated.y s.iterated.x = true := (hasMatch_decremented hne hone).trans hm
    have hrest := ih hs.iterated (State.iterated_pc hone) hk' hm'
    rw [periodIterations_decremented hone, Nat.add_sub_add_right]
    exact (hs.phase_skip hpc hne).append hrest

/-- The pin trace of a whole loop that is entered with the line low. -/
def loopTrace (p x : Word) : List Bool :=
  if hasMatch p x then
    List.replicate (2 * matchIteration p x) false ++
      false :: List.replicate (2 * (periodIterations p - matchIteration p x)) true
  else List.replicate (2 * periodIterations p) false

theorem State.OnReference.phase_loop {s : State} (hs : s.OnReference) (hpc : s.pc = 3#3) (hlow : s.pin = false) :
    Phase pastSampling s (loopTrace s.y s.x) (s.setPin (hasMatch s.y s.x)).loopLeft := by
  unfold loopTrace
  cases hm : hasMatch s.y s.x with
  | true => simpa [hlow] using hs.phase_pulseLoop hpc rfl hm
  | false =>
    have hkept : s.setPin false = s := by rw [State.setPin, ← hlow]
    simpa [hlow, hkept] using hs.phase_quietLoop hpc rfl hm

/-- The loop takes the period's length less the three ticks before it (R118). -/
theorem length_loopTrace (p x : Word) : (loopTrace p x).length + 3 = periodLength p x := by
  unfold loopTrace
  cases hm : hasMatch p x with
  | true =>
    have hlt := (hasMatch_iff p x).1 hm
    rw [periodLength_of_match hm]
    simp only [if_true, List.length_append, List.length_cons, List.length_replicate]
    omega
  | false =>
    rw [periodLength_of_noMatch hm]
    simp

/-! ### A whole period (O48, O49, O50) -/

/-- The state at the end of a period that begins in `s`: all that it changes is X, Y, the slot's flag and the line. -/
def State.periodEnd (s : State) : State :=
  { s with x := sampledX s, y := 0, slotFull := false, pin := hasMatch s.pre (sampledX s) }

/-- The state at the `LDY` of a period that begins in `s`. -/
def State.sampled (s : State) : State := { s with x := sampledX s, slotFull := false, pin := false, pc := 2#3 }

theorem State.OnReference.sampled {s : State} (hs : s.OnReference) : s.sampled.OnReference :=
  ⟨hs.running, hs.onlyTicks, hs.reference⟩

/-- `CLRP`. -/
theorem State.OnReference.phase_clrp {s : State} (hs : s.OnReference) {p : State → Bool} (hpc : s.pc = 0#3)
    (hp : p s = true) : Phase p s [false] ((s.setPin false).goto 1#3) := by
  have hnext : nextPc s.pc = 1#3 := hpc ▸ nextPc_of_le (p := 0#3) (by decide)
  have hafter : execState .clrp s = (s.setPin false).goto 1#3 := by
    rw [execState, State.advance, State.setPin_pc, hnext]
  have htick := hs.phase (hs.fetchInstr_eq hpc (i := .clrp) rfl) hp
  rwa [hafter] at htick

/-- `LDX`, after the `CLRP` of the period: the sampling point. -/
theorem State.OnReference.phase_ldx {s : State} (hs : s.OnReference) {p : State → Bool}
    (hp : p ((s.setPin false).goto 1#3) = true) : Phase p ((s.setPin false).goto 1#3) [false] s.sampled := by
  have hnext : nextPc 1#3 = 2#3 := nextPc_of_le (p := 1#3) (by decide)
  have hat1 : ((s.setPin false).goto 1#3).OnReference := ⟨hs.running, hs.onlyTicks, hs.reference⟩
  have hafter : execState .ldx ((s.setPin false).goto 1#3) = s.sampled := by
    rw [execState, State.goto_pc, hnext]
    rfl
  have htick := hat1.phase (hat1.fetchInstr_eq rfl (i := .ldx) rfl) hp
  rwa [hafter] at htick

/-- The rest of the period after its `LDX`. -/
theorem State.OnReference.phase_afterSampling {s : State} (hs : s.OnReference) (hpc : s.pc = 0#3) :
    Phase pastSampling s.sampled (false :: loopTrace s.pre (sampledX s)) s.periodEnd := by
  have hnext : nextPc 2#3 = 3#3 := nextPc_of_le (p := 2#3) (by decide)
  have hafter : execState .ldy s.sampled = (s.sampled.setY s.pre).goto 3#3 := by
    rw [execState, State.advance, State.setY_pc, State.sampled, hnext]
  have hldy := hs.sampled.phase (p := pastSampling) (hs.sampled.fetchInstr_eq rfl (i := .ldy) rfl) rfl
  have hat3 := hs.sampled.keeps_execState .ldy
  rw [hafter] at hldy hat3
  have hend : (((s.sampled.setY s.pre).goto 3#3).setPin (hasMatch s.pre (sampledX s))).loopLeft = s.periodEnd := by
    rw [State.loopLeft, ← hpc]
    rfl
  exact hend ▸ hldy.append (hat3.phase_loop rfl rfl)

/-- The pin trace of a whole period. -/
def periodTrace (p x : Word) : List Bool := [false, false] ++ false :: loopTrace p x

/-- A whole period. -/
theorem State.OnReference.phase_period {s : State} (hs : s.OnReference) (hpc : s.pc = 0#3) :
    Phase (fun _ => true) s (periodTrace s.pre (sampledX s)) s.periodEnd :=
  ((hs.phase_clrp hpc rfl).append (hs.phase_ldx rfl)).append ((hs.phase_afterSampling hpc).mono fun _ _ => rfl)

theorem length_periodTrace (p x : Word) : (periodTrace p x).length = periodLength p x :=
  length_loopTrace p x

theorem State.OnReference.pinTrace_period {s : State} (hs : s.OnReference) (hpc : s.pc = 0#3) :
    pinTrace (periodLength s.pre (sampledX s)) s = periodTrace s.pre (sampledX s) := by
  rw [← length_periodTrace]
  exact (hs.phase_period hpc).trace

/-- The three ticks before the loop, its low ticks and the low tick of the match are one run of low ticks. -/
theorem low_ticks_append (n : Nat) (l : List Bool) :
    [false, false] ++ false :: (List.replicate n false ++ false :: l) = List.replicate (4 + n) false ++ l := by
  rw [List.append_cons (List.replicate n false), ← List.replicate_succ', Nat.add_comm 4 n]
  rfl

theorem periodTrace_of_match {p x : Word} (h : hasMatch p x = true) :
    periodTrace p x =
      List.replicate (4 + 2 * matchIteration p x) false ++
        List.replicate (2 * (periodIterations p - matchIteration p x)) true := by
  rw [periodTrace, loopTrace, if_pos h, low_ticks_append]

theorem periodTrace_of_noMatch {p x : Word} (h : hasMatch p x = false) :
    periodTrace p x = List.replicate (periodLength p x) false := by
  rw [periodTrace, loopTrace, h, periodLength_of_noMatch h]
  rfl

/-- Settles O48: the trace of the period's phase, in the two cases of a match. -/
theorem periodWaveform : Obligations.PeriodWaveform := by
  intro s hrun hpc hin hstore
  have hs : s.OnReference := ⟨hrun, hin, hstore⟩
  rw [hs.pinTrace_period hpc]
  exact ⟨periodTrace_of_match, periodTrace_of_noMatch⟩

/-- Settles O49: with `1 <= X <= P` the match is in iteration `P - X` of `P`. -/
theorem pulseIsTwiceXTicks : Obligations.PulseIsTwiceXTicks := by
  intro s hrun hpc hin hstore hpos hle
  have hpre : 1 ≤ s.pre.toNat := hpos.trans hle
  have hm : hasMatch s.pre (sampledX s) = true := (hasMatch_iff_of_pos hpre).2 ⟨hpos, hle⟩
  have hwave := (periodWaveform s hrun hpc hin hstore).1 hm
  rwa [periodLength_of_match hm, matchIteration_of_le hle, periodIterations_of_pos hpre, Nat.sub_sub_self hle] at hwave

/-- PC is not at the beginning of a period. -/
def insidePeriod (s : State) : Bool := decide (s.pc ≠ 0#3)

theorem insidePeriod_of_pastSampling {s : State} (h : pastSampling s = true) : insidePeriod s = true := by
  have hle : 2#3 ≤ s.pc := of_decide_eq_true h
  refine decide_eq_true fun hzero => ?_
  rw [hzero] at hle
  exact absurd hle (by decide)

/-- A period, from its second tick on. -/
theorem State.OnReference.phase_insidePeriod {s : State} (hs : s.OnReference) (hpc : s.pc = 0#3) :
    Phase insidePeriod ((s.setPin false).goto 1#3) ([false] ++ false :: loopTrace s.pre (sampledX s)) s.periodEnd :=
  (hs.phase_ldx rfl).append ((hs.phase_afterSampling hpc).mono fun _ => insidePeriod_of_pastSampling)

/-- Settles O50: the run of the period's phase; and after its first tick PC is not 0 again before the end. -/
theorem periodEndsAfterItsLength : Obligations.PeriodEndsAfterItsLength := by
  intro s hrun hpc hin hstore
  have hs : s.OnReference := ⟨hrun, hin, hstore⟩
  constructor
  · rw [← length_periodTrace]
    exact (hs.phase_period hpc).run
  · intro k hpos hlt
    have hlen := length_loopTrace s.pre (sampledX s)
    obtain ⟨j, rfl⟩ : ∃ j, k = 1 + j := ⟨k - 1, by omega⟩
    obtain ⟨m, hm⟩ : ∃ m, ([false] ++ false :: loopTrace s.pre (sampledX s)).length = j + (m + 1) :=
      ⟨(loopTrace s.pre (sampledX s)).length + 1 - j, by simp; omega⟩
    have halong := (hs.phase_insidePeriod hpc).along
    rw [hm] at halong
    obtain ⟨t, hrun_t, ht⟩ := holdsAlong_reaches halong
    have hclrp : runSteps 1 s = _ := (hs.phase_clrp (p := fun _ => true) hpc rfl).run
    exact ⟨t, (runSteps_add hclrp).trans hrun_t, of_decide_eq_true (holdsAlong_succ ht).1⟩

/-! ### The first period after setAngle (O51) -/

/-- Steps of the host alone have an empty pin trace. -/
theorem pinTrace_eq_nil {k : Nat} {s : State} (hk : k ≤ s.inputs.length)
    (h : ∀ i ∈ s.inputs.take k, eventOf i ≠ .ok .tick) : pinTrace k s = [] := by
  induction k generalizing s with
  | zero => rfl
  | succ k ih =>
    cases hin : s.inputs with
    | nil => simp [hin] at hk
    | cons i rest =>
      rw [hin] at hk h
      cases hs : step s with
      | fault r => cases r
      | refused r => simp only [pinTrace, hs]
      | next t =>
        have hnt : ¬ s.nextIs .tick := by
          simpa [State.nextIs, nextInput, hin] using h i (by simp)
        have ht : t.inputs = rest := by rw [step_inputs hs, hin, List.tail_cons]
        rw [pinTrace_succ_of_not_tick hs hnt]
        refine ih (by simpa [ht] using hk) fun i hi => h i ?_
        rw [List.take_succ_cons]
        exact List.mem_cons_of_mem _ (ht ▸ hi)

/-- Settles O51: after the six host steps a period begins whose slot holds the mapped count. -/
theorem initializeThenSetAngleGivesThePulse : Obligations.InitializeThenSetAngleGivesThePulse := by
  intro s periodTicks mn mx d hstore hlow hhigh hin hpos hle
  have hinit := initializeFromAnyState s periodTicks mn mx _ hin
  have hset (u : State) (hu : u.inputs = Driver.setAngle d) :=
    setAngleIsOneStep u d [] hlow hhigh (hu.trans (List.append_nil _).symm)
  have hrun := (runSteps_add hinit).trans (runSteps_succ (k := 0) (hset _ rfl))
  have hsix : s.inputs = [.hostWrite 0 2#32, .hostWrite 1 periodTicks, .hostWrite 2 mn, .hostWrite 3 mx,
      .hostWrite 0 1#32, .hostWrite 4 (BitVec.ofInt 32 d)] := hin
  have hquiet : pinTrace 6 s = [] := pinTrace_eq_nil (by simp [hsix]) (by simp [hsix, eventOf, regOfNumber])
  rw [pinTrace_add hrun, hquiet, List.nil_append]
  exact pulseIsTwiceXTicks _ rfl rfl rfl hstore hpos hle

/-! ### A late angle (O53) -/

/-- What an instruction does is independent of the inputs ahead. -/
theorem execState_withInputs (i : Instr) (s : State) (l : List Input) :
    execState i (s.withInputs l) = (execState i s).withInputs l := by
  have hbranch (u : State) (c : Bool) (a : PcValue) : (u.withInputs l).branch c a = (u.branch c a).withInputs l := by
    cases c <;> rfl
  cases i with
  | clrp | ldx | ldy | setp => rfl
  | jne a => exact hbranch s _ a
  | djnz a => exact hbranch (s.setY _) _ a

/-- A tick listed ahead of the inputs `l` is the tick of the silent host, with `l` still ahead. -/
theorem State.OnReference.step_withInputs {s t : State} (hs : s.OnReference) (h : step s = .next t)
    (l : List Input) : step (s.withInputs (.tick :: l)) = .next (t.withInputs l) := by
  obtain ⟨i, hi, rfl⟩ := hs.step_inv h
  rw [← execState_withInputs]
  exact step_tick_cons rfl hs.running hi

/-- A run over listed ticks is the run of the silent host, and has its pin trace. -/
theorem State.OnReference.run_withInputs {k : Nat} {s t : State} (hs : s.OnReference) (h : runSteps k s = .next t)
    (l : List Input) :
    runSteps k (s.withInputs (List.replicate k .tick ++ l)) = .next (t.withInputs l) ∧
      pinTrace k (s.withInputs (List.replicate k .tick ++ l)) = pinTrace k s := by
  induction k generalizing s with
  | zero => cases h; exact ⟨rfl, rfl⟩
  | succ k ih =>
    obtain ⟨u, hu, hrest⟩ := runSteps_succ_next h
    obtain ⟨hrun, htrace⟩ := ih (hs.keeps_step hu) hrest
    have hstep := hs.step_withInputs hu (List.replicate k .tick ++ l)
    rw [List.replicate_succ, List.cons_append]
    refine ⟨(runSteps_succ hstep).trans hrun, ?_⟩
    rw [pinTrace_succ_of_tick hstep hs.running rfl, pinTrace_succ_of_tick hu hs.running hs.nextIs_tick, htrace]
    rfl

theorem State.OnReference.keeps_runSteps {k : Nat} {s t : State} (hs : s.OnReference)
    (h : runSteps k s = .next t) : t.OnReference := by
  induction k generalizing s with
  | zero => cases h; exact hs
  | succ k ih =>
    obtain ⟨u, hu, hrest⟩ := runSteps_succ_next h
    exact ih (hs.keeps_step hu) hrest

/-- The instructions other than `LDX` neither read nor write the slot. -/
theorem execState_slotPut {i : Instr} (hi : i ≠ .ldx) (s : State) (v : Word) :
    execState i (s.slotPut v) = (execState i s).slotPut v := by
  have hbranch (u : State) (c : Bool) (a : PcValue) : (u.slotPut v).branch c a = (u.branch c a).slotPut v := by
    cases c <;> rfl
  cases i with
  | ldx => exact absurd rfl hi
  | clrp | ldy | setp => rfl
  | jne a => exact hbranch s _ a
  | djnz a => exact hbranch (s.setY _) _ a

/-- The reference program has its one `LDX` at index 1 (41_reference_program.md R110). -/
theorem State.OnReference.fetchInstr_ne_ldx {s : State} (hs : s.OnReference) (h : pastSampling s = true) :
    fetchInstr s ≠ .ok .ldx := by
  have hprog : ∀ p : PcValue, 2#3 ≤ p → fetchInstr { State.reset with pc := p } ≠ .ok .ldx := by decide
  rw [fetchInstr_congr (t := { State.reset with pc := s.pc }) hs.reference rfl]
  exact hprog s.pc (of_decide_eq_true h)

/-- A put leaves the waveform alone for as long as no `LDX` is reached (R124). -/
theorem State.OnReference.pinTrace_slotPut {k : Nat} {s : State} (hs : s.OnReference)
    (h : holdsAlong pastSampling k s = true) (v : Word) : pinTrace k (s.slotPut v) = pinTrace k s := by
  induction k generalizing s with
  | zero => rfl
  | succ k ih =>
    obtain ⟨hp, t, ht, hat⟩ := holdsAlong_succ h
    obtain ⟨i, hi, rfl⟩ := hs.step_inv ht
    have hne : i ≠ .ldx := by rintro rfl; exact hs.fetchInstr_ne_ldx hp hi
    have hs' : (s.slotPut v).OnReference := ⟨hs.running, hs.onlyTicks, hs.reference⟩
    have ht' : step (s.slotPut v) = .next ((execState i s).slotPut v) := by
      rw [← execState_slotPut hne]
      exact hs'.step_eq hi
    rw [pinTrace_succ_of_tick ht' hs'.running hs'.nextIs_tick, pinTrace_succ_of_tick ht hs.running hs.nextIs_tick,
      ih (hs.keeps_execState i) hat]
    rfl

/-- The state after any number of ticks from the sampling point on, with the rest of the period ahead of it. -/
theorem State.OnReference.reaches_afterSampling {s : State} (hs : s.OnReference) (hpc : s.pc = 0#3) {j m : Nat}
    (hlen : j + m = (loopTrace s.pre (sampledX s)).length + 1) :
    ∃ u, runSteps (2 + j) s = .next u ∧ u.OnReference ∧ holdsAlong pastSampling m u = true := by
  have halong := (hs.phase_afterSampling hpc).along
  rw [List.length_cons, ← hlen] at halong
  obtain ⟨u, hu, hau⟩ := holdsAlong_reaches halong
  have hhead := (hs.phase_clrp (p := fun _ => true) hpc rfl).append (hs.phase_ldx rfl)
  have hrun : runSteps (2 + j) s = .next u := (runSteps_add hhead.run).trans hu
  exact ⟨u, hrun, hs.keeps_runSteps hrun, hau⟩

/-- Settles O53: the ticks before the put are those of the silent host, the put is no tick, and the ticks after it do
not reach an `LDX`. -/
theorem lateAngleWaitsForTheNextPeriod : Obligations.LateAngleWaitsForTheNextPeriod := by
  intro s j v hrun hpc hin hstore hj hjL
  have hs : s.OnReference := ⟨hrun, hin, hstore⟩
  have hlen := length_loopTrace s.pre (sampledX s)
  obtain ⟨m, hm⟩ := Nat.exists_eq_add_of_le hjL
  obtain ⟨j, rfl⟩ := Nat.exists_eq_add_of_le hj
  obtain ⟨u, hu, hsu, hau⟩ := hs.reaches_afterSampling hpc (j := j) (m := m) (by omega)
  obtain ⟨hrun', htrace'⟩ := hs.run_withInputs hu [.hostWrite 4 v]
  have hput : step (u.withInputs [.hostWrite 4 v]) = .next (u.slotPut (mapAngle u.pwmin u.pwmax v)) := by
    rw [step_angleWrite rfl, ← hsu.onlyTicks]
    rfl
  have hnt : ¬ (u.withInputs [.hostWrite 4 v]).nextIs .tick := by
    simp [State.nextIs, nextInput, State.withInputs, eventOf, regOfNumber]
  rw [hm, Nat.add_assoc, pinTrace_add hu]
  refine (pinTrace_add hrun').trans ?_
  rw [htrace', pinTrace_succ_of_not_tick hput hnt, hsu.pinTrace_slotPut hau]

end Sys2Proof.Machine
end
